-- ==== Sys2Proof/Word.lean ====
section
/-! DEFINITION. The word types of kyocode CORE (00_scope.md R5, R8; 20_memory.md R50). Every value is unsigned (R8). -/

namespace Sys2Proof

/-- One word of the host port: 32 bits (R50). A symbol on the host interface is a whole word (R10, D2). -/
abbrev Word := BitVec 32

/-- A payload byte (R5, BYTE_W). -/
abbrev Byte := BitVec 8

/-- A group, or alphabet index: a 10-bit value (R5 GROUP_W, R77). -/
abbrev Group := BitVec 10

/-- A word address of the host port (R50). -/
abbrev HostAddr := BitVec 16

/-- An OP value of the command word (R71). -/
abbrev Op := BitVec 4

end Sys2Proof
end

