-- ==== Sys2Proof/Config.lean ====
section
/-! DEFINITION. The fixed constants (00_scope.md R5), the implementation parameters (R6), and the free values.
The configuration is fixed for the block's lifetime and is not state (10_state.md R20, D8). -/

namespace Sys2Proof

/-! ## Fixed constants (R5): never parameters. -/

/-- ALPHA_N, the alphabet size. -/
@[simp] abbrev alphaN : Nat := 1024
/-- DIGEST_LEN, the truncated digest in bytes. -/
@[simp] abbrev digestLen : Nat := 5
/-- HASH_LEN, the hash output in bytes. -/
@[simp] abbrev hashLen : Nat := 32
/-- HDR_DIGEST_SYMS, the header's digest symbols. -/
@[simp] abbrev hdrDigestSyms : Nat := 4
/-- HDR_LEN, the header in symbols. -/
@[simp] abbrev hdrLen : Nat := 5

/-! ## The alphabet -/

/-- The entries rise strictly, as unsigned integers (R7 item 3). -/
def ascending : List Word → Bool
  | a :: b :: rest => decide (a < b) && ascending (b :: rest)
  | _ => true

/-- A well-formed alphabet as the ROM holds it: 1024 entries, strictly ascending (10_state.md R29, 00_scope.md R7).
An entry of SYM_W bits stands zero-extended in a word. An alphabet that is not strictly ascending cannot be built:
40_alphabet.md R103 asks a model to refuse it. -/
structure Alphabet where
  entries : List Word
  size : entries.length = alphaN
  sorted : ascending entries = true
deriving DecidableEq, Repr

/-- Every entry is below 2^w (R7 item 2). -/
def entriesFit (w : Nat) (entries : List Word) : Bool := entries.all fun x => decide (x.toNat < 2 ^ w)

/-- `n` consecutive words from `base` up. The test alphabet of 95_test_vectors.md is of this form (D31). -/
def countUp (base : Nat) : Nat → List Word
  | 0 => []
  | n + 1 => BitVec.ofNat 32 base :: countUp (base + 1) n

theorem countUp_length (base n : Nat) : (countUp base n).length = n := by
  induction n generalizing base with
  | zero => rfl
  | succ n ih => simp [countUp, ih]

theorem countUp_ascending (base n : Nat) (h : base + n ≤ 2 ^ 32) : ascending (countUp base n) = true := by
  induction n generalizing base with
  | zero => rfl
  | succ n ih =>
    cases n with
    | zero => rfl
    | succ m =>
      have hlt : BitVec.ofNat 32 base < BitVec.ofNat 32 (base + 1) := by
        simp only [BitVec.lt_def, BitVec.toNat_ofNat]
        omega
      simpa [countUp, ascending, hlt] using ih (base + 1) (by omega)

theorem countUp_fits (base n w : Nat) (h : base + n ≤ 2 ^ w) : entriesFit w (countUp base n) = true := by
  induction n generalizing base with
  | zero => rfl
  | succ n ih =>
    have hlt : (BitVec.ofNat 32 base).toNat < 2 ^ w := by
      rw [BitVec.toNat_ofNat]
      exact lt_of_le_of_lt (Nat.mod_le _ _) (by omega)
    simp only [countUp, entriesFit, List.all_cons, Bool.and_eq_true, decide_eq_true_eq]
    exact ⟨hlt, ih (base + 1) (by omega)⟩

/-- The test alphabet of the spec's vectors: ALPHABET[i] = 0x4E00 + i (D31). It is not the block's alphabet. -/
def Alphabet.test : Alphabet :=
  { entries := countUp 0x4E00 alphaN
    size := countUp_length _ _
    sorted := countUp_ascending _ _ (by decide) }

/-! ## The parameters -/

/-- FLAG_POLICY (R6, D5): what padding flag 1 does when the payload's bit count is not a multiple of 8. -/
inductive FlagPolicy where
  | dropLast
  | dropIfAligned
deriving DecidableEq, Repr

/-- The implementation parameters (R6), with the defaults the spec gives. `alphabet` holds each SYM_W-bit entry
zero-extended to a word. Well-formedness (R7) is `Config.wf` of WellFormed.lean. -/
structure Config where
  alphabet : List Word
  symW : Nat := 21
  hash256 : List Byte → Vector Byte hashLen
  ibufDepth : Nat := 4096
  obufDepth : Nat := 5120
  flagPolicy : FlagPolicy := .dropLast

/-! ## Free values: constants with no body, so that nothing can be proved of what they are. -/

/-- An uninterpreted element of any type that has one. -/
opaque Config.someOf (α : Type) [Inhabited α] : α

/-- An alphabet whose entries fit in SYM_W = 21 bits. -/
abbrev BlockAlphabet := { a : Alphabet // entriesFit 21 a.entries = true }

/-- ALPHABET is OPEN (D3, log entry 1): some well-formed alphabet, none in particular. The element named here only
shows that the type has one. -/
def Config.openAlphabet : BlockAlphabet :=
  @Config.someOf BlockAlphabet ⟨⟨Alphabet.test, countUp_fits _ _ _ (by decide)⟩⟩

/-- HASH256 is OPEN (D4, log entry 2): some total function from byte sequences to 32 bytes. -/
opaque Config.openHash256 : List Byte → Vector Byte hashLen

/-- The word a host read returns where the spec says "any 32-bit value" (20_memory.md R53, 70_reset_and_hazards.md
R236; log entry 7): the n-th draw. -/
opaque Config.readDraw : Nat → Word

/-- The value of a host variable that the host program has not written (30_encoding.md R82 gives none; log entry 16). -/
opaque Config.unsetHostVar : Nat → Word

/-- The configuration of the block: the two OPEN parameters left open, every other parameter at the default that R6
gives it (log entry 3). -/
def Config.block : Config :=
  { alphabet := Config.openAlphabet.1.entries
    hash256 := Config.openHash256 }

end Sys2Proof
end

