-- ==== Sys2Proof/Syntax.lean ====
section
/-! DEFINITION. The commands of the block: one constructor per row of spec/opcode_table.json (30_encoding.md R72).
A command has no operand fields: its operands come from ILEN, FLAG and IBUF (R71, R76). -/

namespace Sys2Proof

/-- The eight commands, in the order of the opcode map (R72). -/
inductive Instr where
  /-- SYM_AT, OP 0x1 (40_alphabet.md R104). -/
  | symAt
  /-- INDEX_OF, OP 0x2 (40_alphabet.md R105). -/
  | indexOf
  /-- PACK, OP 0x3 (41_bitpacker.md R132). -/
  | pack
  /-- UNPACK, OP 0x4 (41_bitpacker.md R133). -/
  | unpack
  /-- HDR_ENC, OP 0x5 (42_header.md R152). -/
  | hdrEnc
  /-- HDR_DEC, OP 0x6 (42_header.md R153). -/
  | hdrDec
  /-- ENCODE, OP 0x7 (43_codec.md R173). -/
  | encode
  /-- DECODE, OP 0x8 (43_codec.md R182). -/
  | decode
deriving DecidableEq, Repr

end Sys2Proof
end

