-- ==== Sys2Proof/WellFormed.lean ====
section
/-! DEFINITION. Well-formedness: of a configuration (00_scope.md R7), of a command, and of an OP value (30_encoding.md
R72, R73). -/

namespace Sys2Proof

/-! ## The configuration: one check for each item of R7 (and the range of SYM_W, R6). -/

/-- SYM_W is 1 to 32 (R6). -/
def Config.symWOk (c : Config) : Bool := decide (1 ≤ c.symW) && decide (c.symW ≤ 32)

/-- R7 item 1: exactly 1024 entries. -/
def Config.sizeOk (c : Config) : Bool := c.alphabet.length == alphaN

/-- R7 item 2: each entry is below 2^SYM_W. -/
def Config.entriesOk (c : Config) : Bool := entriesFit c.symW c.alphabet

/-- R7 item 3: the entries are strictly ascending. -/
def Config.ascendingOk (c : Config) : Bool := ascending c.alphabet

/-- R7 item 4: 5 <= IBUF_DEPTH <= 16384. -/
def Config.ibufOk (c : Config) : Bool := decide (5 ≤ c.ibufDepth) && decide (c.ibufDepth ≤ 16384)

/-- ceil(4n/5), the groups that n bytes pack to (41_bitpacker.md R121). -/
def groupsFor (n : Nat) : Nat := (4 * n + 4) / 5

/-- floor(5k/4), the whole bytes in k groups (41_bitpacker.md R124). -/
def bytesIn (k : Nat) : Nat := 5 * k / 4

/-- R7 item 5: max(floor(5*IBUF_DEPTH/4), 5 + ceil(4*IBUF_DEPTH/5)) <= OBUF_DEPTH <= 32768. -/
def Config.obufOk (c : Config) : Bool :=
  decide (max (bytesIn c.ibufDepth) (hdrLen + groupsFor c.ibufDepth) ≤ c.obufDepth) && decide (c.obufDepth ≤ 32768)

/-- A configuration is well formed (R7). A model must refuse any other (60_exceptions.md R211). -/
def Config.wf (c : Config) : Bool :=
  c.symWOk && c.sizeOk && c.entriesOk && c.ascendingOk && c.ibufOk && c.obufOk

theorem Config.wf_sizeOk {c : Config} (h : c.wf = true) : c.alphabet.length = alphaN := by
  simp only [Config.wf, Bool.and_eq_true] at h
  simpa [Config.sizeOk] using h.1.1.1.1.2

theorem Config.wf_ascendingOk {c : Config} (h : c.wf = true) : ascending c.alphabet = true := by
  simp only [Config.wf, Bool.and_eq_true] at h
  exact h.1.1.2

/-- The ROM that a well-formed configuration gives the block (10_state.md R29). -/
def Config.rom (c : Config) (h : c.wf = true) : Alphabet :=
  { entries := c.alphabet
    size := Config.wf_sizeOk h
    sorted := Config.wf_ascendingOk h }

/-! ## Commands -/

/-- A command has no fields, so every command is well formed (R71). -/
def Instr.wf : Instr → Bool
  | .symAt => true
  | .indexOf => true
  | .pack => true
  | .unpack => true
  | .hdrEnc => true
  | .hdrDec => true
  | .encode => true
  | .decode => true

/-- An OP value that names a command: 1 to 8 (R72). 0 and 9 to 15 are reserved (R73). -/
def opNamesCommand (op : Op) : Bool := decide (1 ≤ op.toNat) && decide (op.toNat ≤ 8)

end Sys2Proof
end

