-- ==== Sys2Proof/Decode.lean ====
section
/-! DEFINITION. Decoding and encoding the command word (30_encoding.md R71 to R73). The decoder reads bits 3:0 only:
match = OP, mask = 0x0000_000F. Bits 31:4 are ignored. -/

namespace Sys2Proof

/-- Why a command word names no command. -/
inductive DecodeError where
  /-- A reserved OP value, 0x0 or 0x9 to 0xF (R73). The block step answers it with BAD_COMMAND: no stop. -/
  | reservedOp (op : Op)
deriving DecidableEq, Repr

/-- The OP field of a command word: bits 3:0 (R71). -/
def opField (w : Word) : Op := w.extractLsb' 0 4

/-- The command an OP value names (R72), or the reserved value (R73). -/
def decodeOp (op : Op) : Except DecodeError Instr :=
  match op.toNat with
  | 1 => .ok .symAt
  | 2 => .ok .indexOf
  | 3 => .ok .pack
  | 4 => .ok .unpack
  | 5 => .ok .hdrEnc
  | 6 => .ok .hdrDec
  | 7 => .ok .encode
  | 8 => .ok .decode
  | _ => .error (.reservedOp op)

/-- The command a command word starts: bits 31:4 do not matter (R71). -/
def decode (w : Word) : Except DecodeError Instr := decodeOp (opField w)

/-- The OP value of a command (R72). -/
def opOf : Instr → Op
  | .symAt => 0x1#4
  | .indexOf => 0x2#4
  | .pack => 0x3#4
  | .unpack => 0x4#4
  | .hdrEnc => 0x5#4
  | .hdrDec => 0x6#4
  | .encode => 0x7#4
  | .decode => 0x8#4

/-- The command word of a command, as the host statement `cmd <MNEMONIC>` writes it (R82): OP, every ignored bit 0. -/
def encode (i : Instr) : Word := (opOf i).setWidth 32

/-- One row of spec/opcode_table.json. -/
structure OpRow where
  mask : Word
  value : Word
  instr : Instr
deriving DecidableEq, Repr

/-- spec/opcode_table.json, row for row. -/
def opcodeTable : List OpRow :=
  [ ⟨0x0000000F#32, 0x00000001#32, .symAt⟩,
    ⟨0x0000000F#32, 0x00000002#32, .indexOf⟩,
    ⟨0x0000000F#32, 0x00000003#32, .pack⟩,
    ⟨0x0000000F#32, 0x00000004#32, .unpack⟩,
    ⟨0x0000000F#32, 0x00000005#32, .hdrEnc⟩,
    ⟨0x0000000F#32, 0x00000006#32, .hdrDec⟩,
    ⟨0x0000000F#32, 0x00000007#32, .encode⟩,
    ⟨0x0000000F#32, 0x00000008#32, .decode⟩ ]

/-- The host's view of the decoder: `w` holds the bits of one command word, bit 0 least significant; bits above `nbits`
are 0. A command word is one 32-bit word, so no byte order enters (R56, R71). -/
def decodeTableWord (nbits w : Nat) : Option Instr :=
  match decode (BitVec.ofNat 32 (w % 2 ^ nbits)) with
  | .ok i => some i
  | .error _ => none

end Sys2Proof
end

