-- ==== Sys2Proof/Machine/State.lean ====
section
/-! DEFINITION. The block's state (10_state.md R20 to R31), the reasons a step can stop (60_exceptions.md R211), and the
state after reset (10_state.md R35). Plain data. -/

namespace Sys2Proof.Machine

/-- The contents of a buffer: (index, word) cells at strictly rising indices; an unlisted entry holds no value
(10_state.md R36). The smallest unit of the host port is the 32-bit word (20_memory.md R50; log entry 11). -/
abbrev Memory := List (Nat × Word)

/-- The canonical form: strictly rising indices, so that equal contents are equal lists. -/
abbrev Memory.wf (m : Memory) : Prop := m.Pairwise fun p q => p.1 < q.1

/-- Every listed entry lies below the buffer's depth. -/
abbrev Memory.within (depth : Nat) (m : Memory) : Prop := ∀ p ∈ m, p.1 < depth

/-- STATUS.CODE: the seven codes that are ever produced (10_state.md R22, 60_exceptions.md R202; log entry 17). -/
inductive StatusCode where
  | ok
  | tooShort
  | invalidSymbol
  | malformedHeader
  | checksumMismatch
  | badCommand
  | badLength
deriving DecidableEq, Repr

/-- An event at the block, in the single order of all events (20_memory.md R60; log entry 5). -/
inductive Event where
  /-- HostWrite(a, v) (20_memory.md R52). -/
  | write (a : HostAddr) (v : Word)
  /-- HostRead(a) (20_memory.md R53). -/
  | read (a : HostAddr)
  /-- The reset input is asserted (70_reset_and_hazards.md R230). -/
  | reset
  /-- The block agent moves: block_step where it is enabled (60_exceptions.md R201). -/
  | blockTurn
deriving DecidableEq, Repr

/-- The state of the block (R20), and three fields of the model's own (log entries 5, 6, 7). -/
structure State where
  /-- CMD.OP as the last accepted CMD write stored it (R21). -/
  cmdOp : Op
  /-- STATUS.CODE (R22). -/
  code : StatusCode
  /-- ILEN.N (R23). -/
  ilen : BitVec 16
  /-- OLEN.N (R24). -/
  olen : BitVec 16
  /-- FLAG.F (R25). -/
  flag : Bool
  /-- PEND, the pending command; STATUS.BUSY = 1 exactly when it holds a value (R30; log entry 8). -/
  pend : Option Op
  /-- IBUF (R27). -/
  ibuf : Memory
  /-- OBUF (R28). -/
  obuf : Memory
  /-- The alphabet ROM A[0..1023] (R29). -/
  rom : Alphabet
  /-- The model's own: the events to come, oldest first. -/
  events : List Event
  /-- The model's own: the word that the last host read returned. -/
  reply : Option Word
  /-- The model's own: how many free words host reads have drawn. -/
  draws : Nat
deriving DecidableEq, Repr

/-- The model faults of R211. The hardware has neither: each marks a place where the spec gives no meaning. -/
inductive Fault where
  /-- Raised by a command whose read set holds an IBUF entry that the host has not written since reset (10_state.md R36,
  60_exceptions.md R211). Safe: hardware goes on with some value. -/
  | unwrittenInput
  /-- Raised by a host read of an OBUF entry that no command has written since reset, while STATUS.BUSY = 0 (10_state.md
  R36, 20_memory.md R53). Safe: hardware returns some value. -/
  | unwrittenOutput
deriving DecidableEq, Repr

/-- The refusals. -/
inductive Refusal where
  /-- An instruction without a meaning: no arm of exec answers this. Safe. -/
  | notModelled (mnemonic : String)
  /-- The configuration breaks 00_scope.md R7 (60_exceptions.md R211): raised by stepConfigured, never by step, whose
  configuration is well formed. Safe: a claim about a refused configuration cannot be proved. -/
  | badConfiguration
deriving DecidableEq, Repr

/-- The three outcomes, at this machine's types. -/
abbrev Result := Host.Outcome State Fault Refusal

/-- The state after reset of a block whose ROM holds `rom` (R35). -/
def State.resetWith (rom : Alphabet) : State :=
  { cmdOp := 0#4
    code := .ok
    ilen := 0#16
    olen := 0#16
    flag := false
    pend := none
    ibuf := []
    obuf := []
    rom := rom
    events := []
    reply := none
    draws := 0 }

/-- The machine right after reset (R35): A[i] = ALPHABET[i] of the block's configuration. -/
def State.reset : State := State.resetWith Config.openAlphabet.1

/-- STATUS.BUSY (R22): 1 exactly when PEND holds a command (R30). -/
def State.busy (s : State) : Bool := s.pend.isSome

end Sys2Proof.Machine
end

