-- ==== Sys2Proof/Machine/Bits.lean ====
section
/-! DEFINITION. Bit strings (00_scope.md R8): sequences of bits written left to right, the first in stream order first.
Most significant bit first at every width (20_memory.md R57). -/

namespace Sys2Proof.Machine

/-- `bits_W(v)`: the W-bit string of v, most significant bit first. -/
def bitsOf {w : Nat} (v : BitVec w) : List Bool := (List.range w).map v.getMsbD

/-- `val(s)`: a bit string read as an unsigned number, its first bit most significant. -/
def val (s : List Bool) : Nat := s.foldl (fun n b => 2 * n + b.toNat) 0

/-- `bytes_to_bits(bs)`. -/
def bytesToBits (bs : List Byte) : List Bool := bs.flatMap bitsOf

/-- `groups_to_bits(gs)`. -/
def groupsToBits (gs : List Group) : List Bool := gs.flatMap bitsOf

/-- `[ val(s[wj .. wj+w-1]) for j in 0 .. k-1 ]`, each value as a w-bit word. -/
def chunks (w k : Nat) (s : List Bool) : List (BitVec w) :=
  (List.range k).map fun j => BitVec.ofNat w (val ((s.drop (w * j)).take w))

end Sys2Proof.Machine
end

