-- ==== Sys2Proof/Machine/Ops.lean ====
section
/-! DEFINITION. The named operations over the buffers and registers: reading and writing a buffer entry, starting a
command (30_encoding.md R70), ending one with success or failure (60_exceptions.md R204, R205), reset
(70_reset_and_hazards.md R230 to R232). The block has no traps (R207): `finishOk` and `fail` are what every command ends
with, and no state is saved or restored. -/

namespace Sys2Proof.Machine

/-! ## Buffers -/

/-- The word a buffer entry holds; none where nothing has written it since reset (10_state.md R36). -/
def Memory.read : Memory → Nat → Option Word
  | [], _ => none
  | (j, w) :: m, i => if i = j then some w else Memory.read m i

/-- Store a word in a buffer entry, keeping the canonical form. -/
def Memory.write : Memory → Nat → Word → Memory
  | [], i, w => [(i, w)]
  | (j, v) :: m, i, w =>
    if i < j then (i, w) :: (j, v) :: m
    else if i = j then (i, w) :: m
    else (j, v) :: Memory.write m i w

/-- Store `ws` in the entries from `i` up. -/
def Memory.writeFrom (m : Memory) (i : Nat) : List Word → Memory
  | [] => m
  | w :: ws => Memory.writeFrom (m.write i w) (i + 1) ws

/-- The `n` entries from `i` up; none where one of them holds no value. -/
def Memory.readFrom (m : Memory) (i : Nat) : Nat → Option (List Word)
  | 0 => some []
  | n + 1 =>
    match m.read i, Memory.readFrom m (i + 1) n with
    | some w, some ws => some (w :: ws)
    | _, _ => none

/-! ## Registers -/

/-- The number of a status code (60_exceptions.md R202). -/
def StatusCode.bits : StatusCode → BitVec 4
  | .ok => 0#4
  | .tooShort => 1#4
  | .invalidSymbol => 2#4
  | .malformedHeader => 3#4
  | .checksumMismatch => 4#4
  | .badCommand => 5#4
  | .badLength => 6#4

/-- STATUS as the host reads it: BUSY in bit 31, zeros in 30:4, CODE in 3:0 (10_state.md R22). -/
def State.statusWord (s : State) : Word := BitVec.ofBool s.busy ++ (0#27 ++ s.code.bits)

/-- start_command(op) (30_encoding.md R70): PEND is latched, which is STATUS.BUSY = 1, and CODE becomes 0. -/
def State.startCommand (s : State) (op : Op) : State := { s with pend := some op, code := .ok }

/-- A host write to CMD while BUSY = 0: bits 3:0 are stored as CMD.OP (10_state.md R21), and PEND is latched from it
(R30; log entry 9). Bits 31:4 are ignored. -/
def State.writeCmd (s : State) (v : Word) : State := State.startCommand { s with cmdOp := opField v } (opField v)

/-- finish_ok(out) (60_exceptions.md R204). -/
def State.finishOk (s : State) (out : List Word) : State :=
  { s with
    obuf := s.obuf.writeFrom 0 out
    olen := BitVec.ofNat 16 out.length
    code := .ok
    pend := none }

/-- finish_ok(out, flag = f): HDR_DEC only (60_exceptions.md R204). -/
def State.finishOkFlag (s : State) (out : List Word) (f : Bool) : State := { s.finishOk out with flag := f }

/-- fail(c) (60_exceptions.md R205): OBUF, FLAG, ILEN and IBUF are unchanged. -/
def State.fail (s : State) (c : StatusCode) : State := { s with olen := 0#16, code := c, pend := none }

/-- Reset (70_reset_and_hazards.md R230): every register at its value of 10_state.md R35, every buffer entry without a
value; a pending command is abandoned (R231); the ROM is unchanged (R232). The model's own fields stay: events still to
come, the last reply and the draw counter are the outside's (log entry 14). -/
def State.blockReset (s : State) : State :=
  { State.resetWith s.rom with events := s.events, reply := s.reply, draws := s.draws }

end Sys2Proof.Machine
end

