-- ==== Sys2Proof/Machine/Operands.lean ====
section
/-! DEFINITION. Operands: the item kinds in buffer words (30_encoding.md R74, R75), and the entries a command reads
(60_exceptions.md R211). -/

namespace Sys2Proof.Machine

/-! ## Input items (R74) -/

/-- A byte item: bits 7:0; bits 31:8 are ignored. -/
def byteItem (w : Word) : Byte := w.extractLsb' 0 8

/-- A group item: bits 9:0; bits 31:10 are ignored. -/
def groupItem (w : Word) : Group := w.extractLsb' 0 10

/-! ## Output items (R75). A symbol item of the ROM is a word already, zero-extended: see `Alphabet`. -/

/-- A byte item: zext_32(b). -/
def byteWord (b : Byte) : Word := b.setWidth 32

/-- A group item: zext_32(g). -/
def groupWord (g : Group) : Word := g.setWidth 32

/-- A lookup entry (INDEX_OF only): the index where the symbol is found, 0x0000_0400 where it is not. -/
def lookupWord : Option Group → Word
  | some g => groupWord g
  | none => 0x00000400#32

/-! ## The read set (R211) -/

/-- The number of entries IBUF[0..] in the read set of a command with ILEN.N = n: fixed by the command and n alone, not
by the data. It is the host's duty to have written them (70_reset_and_hazards.md R234 step 2). -/
def readCount (depth : Nat) (i : Instr) (n : Nat) : Nat :=
  match i with
  | .symAt => if n ≤ depth then n else 0
  | .indexOf => if n ≤ depth then n else 0
  | .pack => if n ≤ depth then n else 0
  | .unpack => if n ≤ depth then n else 0
  | .hdrEnc => if n = digestLen then digestLen else 0
  | .hdrDec => if hdrLen ≤ n ∧ n ≤ depth then hdrLen else 0
  | .encode => if n ≤ depth then n else 0
  | .decode => if hdrLen ≤ n ∧ n ≤ depth then n else 0

/-- Run `k` on the first n words of IBUF, or stop where one of them holds no value (10_state.md R36). The whole read
set is needed before any data is looked at (R211). -/
def State.withInput (s : State) (n : Nat) (k : List Word → State) : Result :=
  match s.ibuf.readFrom 0 n with
  | none => .fault .unwrittenInput
  | some ws => .next (k ws)

end Sys2Proof.Machine
end

