-- ==== Sys2Proof/Machine/Flags.lean ====
section
/-! DEFINITION. The padding flag: when an encoder sets it (43_codec.md R170), its header symbol (30_encoding.md R79, R81),
and what it drops (41_bitpacker.md R126). The block has no condition codes (10_state.md R34). -/

namespace Sys2Proof.Machine

/-- flag_of(n): the padding flag of an n-byte payload, by the source's formula (R170). -/
def flagOf (n : Nat) : Bool := decide (8 * n % 10 = 1) || decide (8 * n % 10 = 2)

/-- The index of the padding-flag symbol (R79). -/
def flagGroup (f : Bool) : Group := if f then 1#10 else 0#10

/-- The flag a flag-symbol index means: only 0 and 1 are legal (R81). -/
def flagOfGroup (g : Group) : Option Bool :=
  if g = 0#10 then some false
  else if g = 1#10 then some true
  else none

/-- resolve(bs, k, flag) (R126): whether the last byte of unpack_raw is kept. -/
def resolve (policy : FlagPolicy) (bs : List Byte) (k : Nat) (flag : Bool) : List Byte :=
  if flag = false then bs
  else if bs.length = 0 then bs
  else if 10 * k % 8 = 0 then bs.dropLast
  else
    match policy with
    | .dropLast => bs.dropLast
    | .dropIfAligned => bs

end Sys2Proof.Machine
end

