-- ==== Sys2Proof/Machine/Alphabet.lean ====
section
/-! DEFINITION. The Alphabet Table: the lookup functions (40_alphabet.md R100 to R103) and the commands SYM_AT (R104) and
INDEX_OF (R105). -/

namespace Sys2Proof.Machine

/-! ## The lookup functions -/

/-- A(g), zero-extended: forward lookup, total on every group (R100). -/
def symbol (rom : Alphabet) (g : Group) : Word :=
  rom.entries[g.toNat]'(by rw [rom.size]; exact g.isLt)

/-- lookup(s): the group whose symbol is s, if there is one (R101). -/
def lookup (rom : Alphabet) (s : Word) : Option Group :=
  ((List.range alphaN).map (BitVec.ofNat 10)).find? fun g => symbol rom g == s

/-- The search registers LO and HI (10_state.md R31): the candidate range is [LO, HI). They hold at most 1024, and
LO + HI at most 2047, so 11 bits never wrap. -/
structure SearchRegs where
  lo : Nat
  hi : Nat
deriving DecidableEq, Repr

/-- One probe of the search (R102). -/
def searchStep (rom : Alphabet) (s : Word) (r : SearchRegs) : SearchRegs :=
  let mid := (r.lo + r.hi) / 2
  if symbol rom (BitVec.ofNat 10 mid) ≤ s then { r with lo := mid } else { r with hi := mid }

/-- `n` probes. -/
def searchSteps (rom : Alphabet) (s : Word) : Nat → SearchRegs → SearchRegs
  | 0, r => r
  | n + 1, r => searchSteps rom s n (searchStep rom s r)

/-- bsearch(s): ten probes and one equality check (R102). -/
def bsearch (rom : Alphabet) (s : Word) : Option Group :=
  let r := searchSteps rom s 10 { lo := 0, hi := alphaN }
  let g := BitVec.ofNat 10 r.lo
  if symbol rom g = s then some g else none

/-- The indices of a sequence of symbols, in stream order; none as soon as one of them is not in the alphabet. -/
def bsearchAll (rom : Alphabet) : List Word → Option (List Group)
  | [] => some []
  | s :: ss =>
    match bsearch rom s with
    | none => none
    | some g =>
      match bsearchAll rom ss with
      | none => none
      | some gs => some (g :: gs)

/-! ## Commands -/

/-- SYM_AT (R104). -/
def symAt (c : Config) (s : State) : Result :=
  let n := s.ilen.toNat
  if c.ibufDepth < n then .next (s.fail .badLength)
  else s.withInput n fun ws => s.finishOk (ws.map fun w => symbol s.rom (groupItem w))

/-- INDEX_OF (R105): a miss is reported in the entry and does not stop the command. -/
def indexOf (c : Config) (s : State) : Result :=
  let n := s.ilen.toNat
  if c.ibufDepth < n then .next (s.fail .badLength)
  else s.withInput n fun ws => s.finishOk (ws.map fun w => lookupWord (bsearch s.rom w))

/-- SYM_AT at the block's configuration. -/
def execSymAt (s : State) : Result := symAt Config.block s

/-- INDEX_OF at the block's configuration. -/
def execIndexOf (s : State) : Result := indexOf Config.block s

end Sys2Proof.Machine
end

