-- ==== Sys2Proof/Machine/Packer.lean ====
section
/-! DEFINITION. The Bit Packer: the packing functions (41_bitpacker.md R120, R123, R126), which are normative (D32), the
reference state machines (R128, R129), and the commands PACK (R132) and UNPACK (R133). -/

namespace Sys2Proof.Machine

/-! ## The packing functions -/

/-- pack(bs): the bit stream of the bytes, zero padded to whole groups (R120). -/
def pack (bs : List Byte) : List Group :=
  let n := bs.length
  let k := (8 * n + 9) / 10
  chunks 10 k (bytesToBits bs ++ List.replicate (10 * k - 8 * n) false)

/-- unpack_raw(gs): the whole bytes of the groups' bit stream; the tail bits are dropped (R123). -/
def unpackRaw (gs : List Group) : List Byte := chunks 8 (10 * gs.length / 8) (groupsToBits gs)

/-- unpack(gs, flag) (R126). -/
def unpack (policy : FlagPolicy) (gs : List Group) (flag : Bool) : List Byte :=
  resolve policy (unpackRaw gs) gs.length flag

/-! ## The reference state machines -/

/-- The working registers ACC (16 bits) and NB, the count of valid bits, at most 16 (10_state.md R31). -/
structure PackRegs where
  acc : BitVec 16
  nb : Nat
deriving DecidableEq, Repr

/-- The low `nb` bits of ACC: `ACC mod 2^NB`. -/
def keepBits (acc : BitVec 16) (nb : Nat) : BitVec 16 := BitVec.ofNat 16 (acc.toNat % 2 ^ nb)

/-- One byte of the PACK machine (R128): the registers after it, and the group it emits, if any. -/
def packStep (r : PackRegs) (b : Byte) : PackRegs × List Group :=
  let acc := (r.acc <<< 8) ||| b.setWidth 16
  let nb := r.nb + 8
  if 10 ≤ nb then ({ acc := keepBits acc (nb - 10), nb := nb - 10 }, [(acc >>> (nb - 10)).setWidth 10])
  else ({ acc := keepBits acc nb, nb := nb }, [])

/-- The PACK machine from the registers `r` on: the pass over the bytes, then the flush (R128). -/
def packLoop (r : PackRegs) : List Byte → List Group
  | [] => if 0 < r.nb then [(r.acc <<< (10 - r.nb)).setWidth 10] else []
  | b :: bs => (packStep r b).2 ++ packLoop (packStep r b).1 bs

/-- pack_sm(bs) (R128). -/
def packSm (bs : List Byte) : List Group := packLoop { acc := 0#16, nb := 0 } bs

/-- The inner loop of the UNPACK machine (R129): while NB >= 8, emit a byte. At most two bytes, since NB is at most 16;
`fuel` bounds the turns. -/
def emitBytes (acc : BitVec 16) : Nat → Nat → List Byte × Nat
  | 0, nb => ([], nb)
  | fuel + 1, nb =>
    if 8 ≤ nb then
      ((acc >>> (nb - 8)).setWidth 8 :: (emitBytes acc fuel (nb - 8)).1, (emitBytes acc fuel (nb - 8)).2)
    else ([], nb)

/-- One group of the UNPACK machine (R129). -/
def unpackStep (r : PackRegs) (g : Group) : PackRegs × List Byte :=
  let acc := (r.acc <<< 10) ||| g.setWidth 16
  let emitted := emitBytes acc 2 (r.nb + 10)
  ({ acc := keepBits acc emitted.2, nb := emitted.2 }, emitted.1)

/-- The UNPACK machine from the registers `r` on; the tail bits are dropped (R129). -/
def unpackLoop (r : PackRegs) : List Group → List Byte
  | [] => []
  | g :: gs => (unpackStep r g).2 ++ unpackLoop (unpackStep r g).1 gs

/-- unpack_sm(gs) (R129). -/
def unpackSm (gs : List Group) : List Byte := unpackLoop { acc := 0#16, nb := 0 } gs

/-! ## Commands -/

/-- PACK (R132): FLAG is not read or written. -/
def packCmd (c : Config) (s : State) : Result :=
  let n := s.ilen.toNat
  if c.ibufDepth < n then .next (s.fail .badLength)
  else s.withInput n fun ws => s.finishOk ((pack (ws.map byteItem)).map groupWord)

/-- UNPACK (R133): reads FLAG.F and does not write it. -/
def unpackCmd (c : Config) (s : State) : Result :=
  let n := s.ilen.toNat
  if c.ibufDepth < n then .next (s.fail .badLength)
  else s.withInput n fun ws => s.finishOk ((unpack c.flagPolicy (ws.map groupItem) s.flag).map byteWord)

/-- PACK at the block's configuration. -/
def execPack (s : State) : Result := packCmd Config.block s

/-- UNPACK at the block's configuration. -/
def execUnpack (s : State) : Result := unpackCmd Config.block s

end Sys2Proof.Machine
end

