-- ==== Sys2Proof/Machine/Header.lean ====
section
/-! DEFINITION. The Header Codec: the header functions (42_header.md R150, R151) and the commands HDR_ENC (R152) and
HDR_DEC (R153). -/

namespace Sys2Proof.Machine

/-- The codec failures of 60_exceptions.md R202 (the source's §7). -/
inductive CodecError where
  | tooShort
  | invalidSymbol
  | malformedHeader
  | checksumMismatch
deriving DecidableEq, Repr

/-- The status code that reports a codec failure (60_exceptions.md R202). -/
def CodecError.code : CodecError → StatusCode
  | .tooShort => .tooShort
  | .invalidSymbol => .invalidSymbol
  | .malformedHeader => .malformedHeader
  | .checksumMismatch => .checksumMismatch

/-- hdr_enc(d, f): the four groups of the digest and the flag index (R150). -/
def hdrEncode (d : List Byte) (f : Bool) : List Group := pack d ++ [flagGroup f]

/-- The flag that the fifth of the header indices means (R151); none where it is not 0 or 1. -/
def headerFlag (ix : List Group) : Option Bool :=
  match ix.drop hdrDigestSyms with
  | g :: _ => flagOfGroup g
  | [] => none

/-- hdr_dec(ss) on the five header symbols (R151): all five are looked up before the flag index is checked. -/
def hdrDecode (rom : Alphabet) (ss : List Word) : Except CodecError (List Byte × Bool) :=
  match bsearchAll rom ss with
  | none => .error .invalidSymbol
  | some ix =>
    match headerFlag ix with
    | none => .error .malformedHeader
    | some f => .ok (unpackRaw (ix.take hdrDigestSyms), f)

/-- HDR_ENC (R152): reads FLAG.F and does not write it. -/
def hdrEncCmd (_c : Config) (s : State) : Result :=
  if s.ilen.toNat ≠ digestLen then .next (s.fail .badLength)
  else s.withInput digestLen fun ws =>
    s.finishOk ((hdrEncode (ws.map byteItem) s.flag).map (symbol s.rom))

/-- HDR_DEC (R153): items 5 and up are not read; FLAG.F is written on success only. -/
def hdrDecCmd (c : Config) (s : State) : Result :=
  let n := s.ilen.toNat
  if c.ibufDepth < n then .next (s.fail .badLength)
  else if n < hdrLen then .next (s.fail .tooShort)
  else s.withInput hdrLen fun ws =>
    match hdrDecode s.rom ws with
    | .error e => s.fail e.code
    | .ok (d, f) => s.finishOkFlag (d.map byteWord) f

/-- HDR_ENC at the block's configuration. -/
def execHdrEnc (s : State) : Result := hdrEncCmd Config.block s

/-- HDR_DEC at the block's configuration. -/
def execHdrDec (s : State) : Result := hdrDecCmd Config.block s

end Sys2Proof.Machine
end

