-- ==== Sys2Proof/Machine/Codec.lean ====
section
/-! DEFINITION. The Public Codec: the digest (43_codec.md R171), the stream functions (R172, R180, R181) and the commands
ENCODE (R173) and DECODE (R182). -/

namespace Sys2Proof.Machine

/-- HASH5(bs): the first five bytes of HASH256(bs) (R171). -/
def hash5 (c : Config) (bs : List Byte) : List Byte := (c.hash256 bs).toList.take digestLen

/-- encode(bs): header, then payload, as group indices (R172). -/
def encodeStream (c : Config) (bs : List Byte) : List Group :=
  hdrEncode (hash5 c bs) (flagOf bs.length) ++ pack bs

/-- decode(ss): length, header, payload symbols in stream order, padding, truncated hash; all or nothing (R180, R181). -/
def decodeStream (c : Config) (rom : Alphabet) (ss : List Word) : Except CodecError (List Byte) :=
  if ss.length < hdrLen then .error .tooShort
  else
    match hdrDecode rom (ss.take hdrLen) with
    | .error e => .error e
    | .ok (d, f) =>
      match bsearchAll rom (ss.drop hdrLen) with
      | none => .error .invalidSymbol
      | some gs =>
        let bs := unpack c.flagPolicy gs f
        if hash5 c bs = d then .ok bs else .error .checksumMismatch

/-- ENCODE (R173): FLAG is not read or written. -/
def encodeCmd (c : Config) (s : State) : Result :=
  let n := s.ilen.toNat
  if c.ibufDepth < n then .next (s.fail .badLength)
  else s.withInput n fun ws => s.finishOk ((encodeStream c (ws.map byteItem)).map (symbol s.rom))

/-- DECODE (R182): FLAG is not read or written. With ILEN.N < 5 the read set is empty (60_exceptions.md R211). -/
def decodeCmd (c : Config) (s : State) : Result :=
  let n := s.ilen.toNat
  if c.ibufDepth < n then .next (s.fail .badLength)
  else if n < hdrLen then .next (s.fail .tooShort)
  else s.withInput n fun ws =>
    match decodeStream c s.rom ws with
    | .error e => s.fail e.code
    | .ok bs => s.finishOk (bs.map byteWord)

/-- ENCODE at the block's configuration. -/
def execEncode (s : State) : Result := encodeCmd Config.block s

/-- DECODE at the block's configuration. -/
def execDecode (s : State) : Result := decodeCmd Config.block s

end Sys2Proof.Machine
end

