-- ==== Sys2Proof/Machine/Port.lean ====
section
/-! DEFINITION. The host port: HostWrite (20_memory.md R52) and HostRead (R53) over the address map (R51). -/

namespace Sys2Proof.Machine

/-- The word address is an IBUF entry (R51). -/
def inIbuf (c : Config) (a : HostAddr) : Bool := decide (0x4000 ≤ a.toNat) && decide (a.toNat < 0x4000 + c.ibufDepth)

/-- The word address is an OBUF entry (R51). -/
def inObuf (c : Config) (a : HostAddr) : Bool := decide (0x8000 ≤ a.toNat) && decide (a.toNat < 0x8000 + c.obufDepth)

/-- HostWrite(a, v) (R52): ignored while busy (70_reset_and_hazards.md R235). -/
def hostWrite (c : Config) (a : HostAddr) (v : Word) (s : State) : State :=
  if s.busy then s
  else if a = 0x0000#16 then s.writeCmd v
  else if a = 0x0002#16 then { s with ilen := v.extractLsb' 0 16 }
  else if a = 0x0004#16 then { s with flag := v.getLsbD 0 }
  else if inIbuf c a then { s with ibuf := s.ibuf.write (a.toNat - 0x4000) v }
  else s

/-- What a host read finds. -/
inductive ReadResult where
  /-- A word the spec fixes. -/
  | word (w : Word)
  /-- Any 32-bit value: a draw (R53, 70_reset_and_hazards.md R236). -/
  | anyWord
  /-- An OBUF entry without a value: a model fault (10_state.md R36). -/
  | unwritten
deriving DecidableEq, Repr

/-- HostRead(a) (R53), clause for clause. -/
def hostReadResult (c : Config) (a : HostAddr) (s : State) : ReadResult :=
  if a = 0x0001#16 then .word s.statusWord
  else if s.busy && (a == 0x0003#16 || a == 0x0004#16 || inObuf c a) then .anyWord
  else if a = 0x0002#16 then .word (s.ilen.setWidth 32)
  else if a = 0x0003#16 then .word (s.olen.setWidth 32)
  else if a = 0x0004#16 then .word ((BitVec.ofBool s.flag).setWidth 32)
  else if inIbuf c a then
    match s.ibuf.read (a.toNat - 0x4000) with
    | some w => .word w
    | none => .anyWord
  else if inObuf c a then
    match s.obuf.read (a.toNat - 0x8000) with
    | some w => .word w
    | none => .unwritten
  else .word 0x00000000#32

/-- A host read as an event: the block's state does not change (R53, R59); the word is handed to the host in `reply`. -/
def hostRead (c : Config) (a : HostAddr) (s : State) : Result :=
  match hostReadResult c a s with
  | .word w => .next { s with reply := some w }
  | .anyWord => .next { s with reply := some (Config.readDraw s.draws), draws := s.draws + 1 }
  | .unwritten => .fault .unwrittenOutput

end Sys2Proof.Machine
end

