-- ==== Sys2Proof/Machine/Block.lean ====
section
/-! DEFINITION. The block's execution step (60_exceptions.md R201), the next event (20_memory.md R60), and the commands
and the step at any configuration (00_scope.md R6, R7). -/

namespace Sys2Proof.Machine

/-- block_step (R201): enabled exactly when STATUS.BUSY = 1. `run` is the meaning of the commands. A reserved OP ends
with fail(BAD_COMMAND) and reads nothing (30_encoding.md R73). Where no command is pending the state is quiescent and
nothing changes (R214). -/
def blockStep (run : Instr → State → Result) (s : State) : Result :=
  match s.pend with
  | none => .next s
  | some op =>
    match decodeOp op with
    | .ok i => run i s
    | .error (.reservedOp _) => .next (s.fail .badCommand)

/-- The next event happens (log entry 5). With no event to come the block moves, so that a pending command is run
(R213). -/
def turn (run : Instr → State → Result) (c : Config) (s : State) : Result :=
  match s.events with
  | [] => blockStep run s
  | .blockTurn :: rest => blockStep run { s with events := rest }
  | .write a v :: rest => .next (hostWrite c a v { s with events := rest })
  | .read a :: rest => hostRead c a { s with events := rest }
  | .reset :: rest => .next (State.blockReset { s with events := rest })

/-- The commands at any configuration: R6 makes each parameter an argument. At `Config.block` this is `exec`. -/
def runCommand (c : Config) (i : Instr) (s : State) : Result :=
  match i with
  | .symAt => symAt c s
  | .indexOf => indexOf c s
  | .pack => packCmd c s
  | .unpack => unpackCmd c s
  | .hdrEnc => hdrEncCmd c s
  | .hdrDec => hdrDecCmd c s
  | .encode => encodeCmd c s
  | .decode => decodeCmd c s

/-- The step of a block built with any configuration: a configuration that breaks 00_scope.md R7 is refused
(60_exceptions.md R211). -/
def stepConfigured (c : Config) (s : State) : Result :=
  if c.wf then turn (runCommand c) c s else .refused .badConfiguration

/-- The state after reset of a block built with configuration `c` (10_state.md R35), refused where `c` breaks R7. -/
def resetConfigured (c : Config) : Result :=
  if h : c.wf = true then .next (State.resetWith (c.rom h)) else .refused .badConfiguration

/-- A command latched as the pending one, with the next turn given to the block: what an accepted CMD write followed by
a turn of the block comes to (R70, R201; log entry 13). -/
def State.latchNext (s : State) (w : Word) : State :=
  { s.writeCmd w with events := .blockTurn :: s.events }

end Sys2Proof.Machine
end

