-- ==== Sys2Proof/Machine/Step.lean ====
section
/-! DEFINITION. One step of the machine: the next event, at the block's configuration. -/

namespace Sys2Proof.Machine

/-- One step: the next event of `events` happens (`turn`), and a command's meaning is `exec`. -/
def step (s : State) : Host.Outcome State Fault Refusal := turn exec Config.block s

/-- `s` with the command word `w` accepted as the pending command and the next turn given to the block, so that the
very next step runs it (log entry 13). `w` is numbered as the opcode table numbers it: one 32-bit word; bits above
`nbits` are 0. -/
def State.withFetchWord (s : State) (nbits w : Nat) : State := s.latchNext (BitVec.ofNat 32 (w % 2 ^ nbits))

end Sys2Proof.Machine
end

