-- ==== Sys2Proof/Machine/HostProgram.lean ====
section
/-! DEFINITION. The host agent as a program (30_encoding.md R82, R83): the statements of the host language, the expansion
of its pseudo-statements, and the system of one host program and one block, whose steps interleave in any order
(60_exceptions.md R201), with resets between them (70_reset_and_hazards.md R230). The language is the spec's own and not
part of the hardware (D27); a program is held as statements, not as text (log entry 16). -/

namespace Sys2Proof.Machine

/-- A host variable: a named word of the host (R82), or one of the three that the pseudo-statements reserve (R83). -/
inductive HostVar where
  | named (k : Nat)
  | pollWord
  | loopCount
  | loopWord
deriving DecidableEq, Repr

/-- A label of the program, or the label `Lp` of one expansion of `poll`. -/
inductive HostLabel where
  | named (k : Nat)
  | pollLoop (k : Nat)
deriving DecidableEq, Repr

/-- A target of `wr` and `rd` (R82). -/
inductive HostTarget where
  | cmd
  | status
  | ilen
  | olen
  | flag
  | ibuf (i : Nat)
  | obuf (i : Nat)
  | raw (a : HostAddr)
deriving DecidableEq, Repr

/-- The word address of a target (20_memory.md R51). -/
def HostTarget.addr : HostTarget → HostAddr
  | .cmd => 0x0000#16
  | .status => 0x0001#16
  | .ilen => 0x0002#16
  | .olen => 0x0003#16
  | .flag => 0x0004#16
  | .ibuf i => BitVec.ofNat 16 (0x4000 + i)
  | .obuf i => BitVec.ofNat 16 (0x8000 + i)
  | .raw a => a

/-- A value of `wr`: a 32-bit number, or a variable, as R83 uses it. -/
inductive HostValue where
  | word (w : Word)
  | var (x : HostVar)
deriving DecidableEq, Repr

/-- The statements of R82. `cmd <MNEMONIC>` is the pseudo-statement of `HostLine`. `copyAll x` is no statement that a
program writes: it is the loop of `loopback`, `for i in 0 .. x-1: rd _t, OBUF[i] ; wr IBUF[i], _t` (R83), which is
unrolled when the host reaches it, for the value that `x` then has. -/
inductive HostStmt where
  | wr (t : HostTarget) (v : HostValue)
  | rd (x : HostVar) (t : HostTarget)
  | label (l : HostLabel)
  | bnz (x : HostVar) (mask : Word) (l : HostLabel)
  | bz (x : HostVar) (mask : Word) (l : HostLabel)
  | halt
  | copyAll (x : HostVar)
deriving DecidableEq, Repr

/-- A line of a host program: a statement, `cmd` (R82), or a pseudo-statement (R83). -/
inductive HostLine where
  | stmt (t : HostStmt)
  | cmd (i : Instr)
  | poll
  | run (i : Instr)
  | load (ws : List Word)
  | loopback
deriving DecidableEq, Repr

/-- `cmd <MNEMONIC>`: wr CMD, OP (R82). -/
def cmdStmts (i : Instr) : List HostStmt := [.wr .cmd (.word (encode i))]

/-- `poll`, its label told apart from other expansions by `k` (R83). -/
def pollStmts (k : Nat) : List HostStmt :=
  [.label (.pollLoop k), .rd .pollWord .status, .bnz .pollWord 0x80000000#32 (.pollLoop k)]

/-- Writes of IBUF[i] and up, one word each. -/
def loadStmts (i : Nat) : List Word → List HostStmt
  | [] => []
  | w :: ws => .wr (.ibuf i) (.word w) :: loadStmts (i + 1) ws

/-- The loop of `loopback` unrolled: OBUF[i] to IBUF[i] for each i below n (R83). -/
def copyStmts (n : Nat) : List HostStmt :=
  (List.range n).flatMap fun i => [.rd .loopWord (.obuf i), .wr (.ibuf i) (.var .loopWord)]

/-- The expansion of a line (R82, R83). -/
def HostLine.expand (k : Nat) : HostLine → List HostStmt
  | .stmt t => [t]
  | .cmd i => cmdStmts i
  | .poll => pollStmts k
  | .run i => cmdStmts i ++ pollStmts k
  | .load ws => loadStmts 0 ws ++ [.wr .ilen (.word (BitVec.ofNat 32 ws.length))]
  | .loopback => [.rd .loopCount .olen, .copyAll .loopCount, .wr .ilen (.var .loopCount)]

/-- A program expanded line by line; each line's number keeps its `poll` label apart. -/
def expandFrom (k : Nat) : List HostLine → List HostStmt
  | [] => []
  | l :: ls => l.expand k ++ expandFrom (k + 1) ls

/-- The host agent: its place in the program, the statements of an unrolled loop that it runs before it goes on from
there, its variables (newest first), and whether it has stopped issuing accesses. -/
structure HostAgent where
  pc : Nat
  todo : List HostStmt
  vars : List (HostVar × Word)
  halted : Bool
deriving DecidableEq, Repr

/-- A host program that has not begun. -/
def HostAgent.start : HostAgent := { pc := 0, todo := [], vars := [], halted := false }

/-- A number for each variable, to which an unset variable's free value is applied. -/
def HostVar.number : HostVar → Nat
  | .pollWord => 0
  | .loopCount => 1
  | .loopWord => 2
  | .named k => k + 3

/-- The word of a variable: the last one stored, or a free value where the program has stored none. -/
def HostAgent.value (h : HostAgent) (x : HostVar) : Word :=
  match h.vars.lookup x with
  | some w => w
  | none => Config.unsetHostVar x.number

/-- The word of a value. -/
def HostAgent.eval (h : HostAgent) : HostValue → Word
  | .word w => w
  | .var x => h.value x

/-- The host agent once a read into `x` has returned `r`. -/
def HostAgent.store (h : HostAgent) (x : HostVar) (r : Option Word) : HostAgent :=
  match r with
  | some w => { h with vars := (x, w) :: h.vars }
  | none => h

/-- The place of a label in a program: the first one where the label stands more than once, and the program's length
where there is none. Both are the model's choice, since R82 is silent on either: DESIGN CHOICE, log entry 16. -/
def labelPlace (l : HostLabel) (prog : List HostStmt) : Nat := prog.idxOf (.label l)

/-- One host program beside one block. -/
structure System where
  agent : HostAgent
  block : State
deriving DecidableEq, Repr

/-- What moves next in the system: one of the two agents, or the reset input, which may be asserted at any time
(70_reset_and_hazards.md R230, R241). A reset resets the block only: R82 has no statement for it and the spec does not
say what the host program then does, so the host agent stays as it is and goes on from its place. DESIGN CHOICE, log
entry 23. -/
inductive Mover where
  | host
  | block
  | reset
deriving DecidableEq, Repr

/-- A step of the block on one event, inside the system. `after` is the host agent's state once the access is done,
given the word that a read returned. -/
def System.access (y : System) (e : Event) (after : Option Word → HostAgent) :
    Host.Outcome System Fault Refusal :=
  match step { y.block with events := [e] } with
  | .next b => .next { agent := after b.reply, block := b }
  | .fault f => .fault f
  | .refused r => .refused r

/-- The host runs one statement (R82). `h` is the host agent already moved past it. -/
def System.perform (prog : List HostStmt) (y : System) (h : HostAgent) :
    HostStmt → Host.Outcome System Fault Refusal
  | .wr t v => y.access (.write t.addr (h.eval v)) fun _ => h
  | .rd x t => y.access (.read t.addr) fun r => h.store x r
  | .label _ => .next { y with agent := h }
  | .bnz x mask l =>
    .next { y with agent := if h.value x &&& mask ≠ 0#32 then { h with pc := labelPlace l prog } else h }
  | .bz x mask l =>
    .next { y with agent := if h.value x &&& mask = 0#32 then { h with pc := labelPlace l prog } else h }
  | .halt => .next { y with agent := { h with halted := true } }
  | .copyAll x => .next { y with agent := { h with todo := copyStmts (h.value x).toNat ++ h.todo } }

/-- One step of the system: the block takes its turn, the block is reset while the host stays as it is (`Mover`; log
entry 23), or the host runs its next statement (R82). A host that has halted makes no more accesses (60_exceptions.md
R214); whether its run has ended is `System.runEnded`. -/
def System.step (prog : List HostStmt) (m : Mover) (y : System) : Host.Outcome System Fault Refusal :=
  match m with
  | .block => y.access .blockTurn fun _ => y.agent
  | .reset => y.access .reset fun _ => y.agent
  | .host =>
    if y.agent.halted then .next y
    else
      match y.agent.todo with
      | t :: rest => y.perform prog { y.agent with todo := rest } t
      | [] =>
        match prog[y.agent.pc]? with
        | some t => y.perform prog { y.agent with pc := y.agent.pc + 1 } t
        | none => .next { y with agent := { y.agent with halted := true } }

/-- The end of a host program's run (60_exceptions.md R214): the host has stopped issuing accesses, in a state with
STATUS.BUSY = 0. A state with BUSY = 1 is never the end, and a step that faults gives no state at all. -/
def System.runEnded (y : System) : Bool := y.agent.halted && !y.block.busy

end Sys2Proof.Machine
end

