-- ==== Sys2Proof/Safety.lean ====
section
/-! DEFINITION. What counts as a safe run, and the terms that the statements use: the machine's invariant, quiescence and
the observation of a command (60_exceptions.md R214), and the host's duty (70_reset_and_hazards.md R234). -/

namespace Sys2Proof.Machine

/-- A step that neither faults nor is refused. -/
abbrev SafeStep (s : State) : Prop := ∃ t, step s = .next t

/-- `k` steps, stopping at the first fault or refusal. -/
def runSteps : Nat → State → Result
  | 0, s => .next s
  | k + 1, s =>
    match step s with
    | .next t => runSteps k t
    | .fault f => .fault f
    | .refused r => .refused r

/-- IBUF[0..n-1] have all been written since reset: the host's duty for a command whose read set they are (R234). -/
abbrev Written (m : Memory) (n : Nat) : Prop := ∀ i, i < n → (m.read i).isSome = true

/-- The word of a written entry. -/
def Memory.word (m : Memory) (i : Nat) : Word := (m.read i).getD 0#32

/-- The words of IBUF[0..n-1], for entries that have been written. -/
def State.inputs (s : State) (n : Nat) : List Word := (List.range n).map s.ibuf.word

/-- OBUF[0..] begins with exactly the words of `out`. -/
abbrev Memory.holds (m : Memory) (out : List Word) : Prop := ∀ j (h : j < out.length), m.read j = some out[j]

/-- Nothing is enabled at the block: no command is pending and no event is to come (R214). -/
abbrev Quiescent (s : State) : Prop := s.pend = none ∧ s.events = []

/-- A host access is the next event. -/
abbrev AccessNext (s : State) : Prop :=
  ∃ rest, (∃ a, s.events = .read a :: rest) ∨ ∃ a v, s.events = .write a v :: rest

/-- The block moves next. -/
abbrev BlockNext (s : State) : Prop := s.events = [] ∨ ∃ rest, s.events = .blockTurn :: rest

/-- The run of the command pending in `s` ends in `t`: at the block_step that finishes it, after any host accesses made
while it is pending (60_exceptions.md R214). A reset abandons the command (70_reset_and_hazards.md R231) and a fault is
never the end, so neither ends a run. -/
inductive CommandRun : State → State → Prop where
  | finish {s t : State} (busy : s.busy = true) (next : BlockNext s) (ends : step s = .next t) : CommandRun s t
  | access {s u t : State} (busy : s.busy = true) (next : AccessNext s) (made : step s = .next u)
      (more : CommandRun u t) : CommandRun s t

/-- The observation of a finished command (R214): STATUS.CODE, OLEN.N, OBUF[0..OLEN.N-1] and, after HDR_DEC, FLAG.F. -/
structure Observation where
  code : StatusCode
  olen : Nat
  out : List (Option Word)
  flag : Option Bool
deriving DecidableEq, Repr

/-- What the host can observe in `s`, the end of the run of a command with OP `op` (R214). -/
def State.observe (op : Op) (s : State) : Observation :=
  { code := s.code
    olen := s.olen.toNat
    out := (List.range s.olen.toNat).map s.obuf.read
    flag := if op = opOf .hdrDec then some s.flag else none }

/-- The machine's invariant, for a block with configuration `c`: both buffers are in canonical form and within their
depths (10_state.md R27, R28); CODE is 0 while BUSY = 1 (R22); OLEN.N is at most OBUF_DEPTH, and every entry of
OBUF[0..OLEN.N-1] holds a value (R24, R28). -/
structure Inv (c : Config) (s : State) : Prop where
  ibuf_wf : s.ibuf.wf
  ibuf_within : s.ibuf.within c.ibufDepth
  obuf_wf : s.obuf.wf
  obuf_within : s.obuf.within c.obufDepth
  busy_code : s.busy = true → s.code = .ok
  olen_le : s.olen.toNat ≤ c.obufDepth
  out_written : Written s.obuf s.olen.toNat

end Sys2Proof.Machine
end

