-- ==== Sys2Proof/Certificates/Slice0/Obligations.lean ====
section
/-! DEFINITION. The statements for the provers. Each docstring names the rule of spec/ that it formalises. Statements about
`exec` and `step` are at the block's configuration (`Config.block`): ALPHABET and HASH256 stay open there, the other
parameters have the defaults of 00_scope.md R6 (log entry 3). Statements that take a `Config` hold for every one. -/

open Sys2Proof Sys2Proof.Machine

/-! ## Reset -/

/-- 10_state.md R35: the value of every state element after reset. A[i] is ALPHABET[i] of the configuration, and a reset
of any state leaves it. (The working registers of R31 are not observable and not in State: log entry 10.) -/
def Obligations.ResetLeavesTheSpecValues : Prop :=
  State.reset.cmdOp = 0#4 ∧ State.reset.statusWord = 0x00000000#32 ∧ State.reset.code = .ok ∧
    State.reset.ilen = 0#16 ∧ State.reset.olen = 0#16 ∧ State.reset.flag = false ∧ State.reset.pend = none ∧
    (∀ i, State.reset.ibuf.read i = none) ∧ (∀ i, State.reset.obuf.read i = none) ∧
    State.reset.rom.entries = Config.block.alphabet ∧ ∀ s : State, s.blockReset.rom = s.rom

/-- 70_reset_and_hazards.md R230 to R232: a reset from any state, busy or not, gives every register its reset value and
every buffer entry no value, abandons a pending command, and leaves the ROM. The order of events is the model's own
field `events` (log entry 5). -/
def Obligations.ResetEventFromAnyState : Prop :=
  ∀ (s : State) (rest : List Event), s.events = .reset :: rest →
    ∃ t, step s = .next t ∧ t.cmdOp = 0#4 ∧ t.statusWord = 0x00000000#32 ∧ t.ilen = 0#16 ∧ t.olen = 0#16 ∧
      t.flag = false ∧ t.pend = none ∧ (∀ i, t.ibuf.read i = none) ∧ (∀ i, t.obuf.read i = none) ∧
      t.rom = s.rom ∧ t.events = rest

/-! ## The command word -/

/-- 30_encoding.md R72: the decoder's match and mask, row for row of the opcode table, for every 32-bit word. -/
def Obligations.DecoderMatchesOpcodeTable : Prop :=
  ∀ (w : Word) (i : Instr), decode w = .ok i ↔ ∃ row ∈ opcodeTable, row.instr = i ∧ w &&& row.mask = row.value

/-- 30_encoding.md R71: every command word of a command, whatever its ignored bits 31:4 hold, decodes to it; the word
that `cmd` writes is the one with those bits 0. -/
def Obligations.DecodeOfEncodeIsTheCommand : Prop :=
  ∀ (i : Instr) (ignored : BitVec 28), decode (ignored ++ opOf i : BitVec (28 + 4)) = .ok i ∧ decode (encode i) = .ok i ∧
    encode i = (0#28 ++ opOf i : BitVec (28 + 4))

/-- Command words of 30_encoding.md R72, R73 and vectors V-EX-1 to V-EX-3 of 95_test_vectors.md, written out. -/
def Obligations.WrittenOutWordsDecode : Prop :=
  decode 0x00000001#32 = .ok .symAt ∧ decode 0x00000002#32 = .ok .indexOf ∧ decode 0xFFFFFFF3#32 = .ok .pack ∧
    decode 0x00000004#32 = .ok .unpack ∧ decode 0x00000005#32 = .ok .hdrEnc ∧ decode 0x00000006#32 = .ok .hdrDec ∧
    decode 0x00000007#32 = .ok .encode ∧ decode 0x00000008#32 = .ok .decode ∧
    decode 0x00000000#32 = .error (.reservedOp 0x0#4) ∧ decode 0x00000009#32 = .error (.reservedOp 0x9#4)

/-- 60_exceptions.md R201: when PEND holds the OP of a command and the block moves, the step is that command's meaning.
Around it the step only takes the block's turn off the events to come (log entry 5). -/
def Obligations.StepRunsTheDecodedCommand : Prop :=
  ∀ (s : State) (op : Op) (i : Instr), s.pend = some op → decodeOp op = .ok i →
    (s.events = [] → step s = exec i s) ∧
    (∀ rest, s.events = .blockTurn :: rest → step s = exec i { s with events := rest })

/-- 30_encoding.md R73: a reserved OP ends with BAD_COMMAND, whatever the buffers hold, written or not; it changes
neither FLAG nor OBUF. The order of events is the model's own field `events` (log entry 5). -/
def Obligations.ReservedOpFailsBadCommand : Prop :=
  ∀ (s : State) (op : Op), s.pend = some op → (op.toNat = 0 ∨ 9 ≤ op.toNat) →
    (s.events = [] → step s = .next { s with olen := 0#16, code := .badCommand, pend := none }) ∧
    (∀ rest, s.events = .blockTurn :: rest →
      step s = .next { s with events := rest, olen := 0#16, code := .badCommand, pend := none })

/-! ## The host port -/

/-- 30_encoding.md R70: a write to CMD while BUSY = 0 latches PEND from bits 3:0, whatever they are, sets BUSY and makes
CODE 0; no other register but CMD.OP, and no buffer or ROM entry, changes. That CMD.OP is stored is the model's reading
(log entry 9); the fields `events`, `reply` and `draws` are the model's own (log entries 5, 6 and 7). -/
def Obligations.CmdWriteStartsACommand : Prop :=
  ∀ (s : State) (v : Word) (rest : List Event), s.busy = false → s.events = .write 0x0000#16 v :: rest →
    ∃ t, step s = .next t ∧ t.pend = some (v.extractLsb' 0 4) ∧ t.statusWord = 0x80000000#32 ∧
      t.cmdOp = v.extractLsb' 0 4 ∧ t.ilen = s.ilen ∧ t.olen = s.olen ∧ t.flag = s.flag ∧ t.ibuf = s.ibuf ∧
      t.obuf = s.obuf ∧ t.rom = s.rom ∧ t.events = rest ∧ t.reply = s.reply ∧ t.draws = s.draws

/-- 70_reset_and_hazards.md R235: while BUSY = 1 every host write is ignored, at every address. The order of events is
the model's own field `events` (log entry 5). -/
def Obligations.HostWriteIgnoredWhileBusy : Prop :=
  ∀ (s : State) (a : HostAddr) (v : Word) (rest : List Event), s.busy = true → s.events = .write a v :: rest →
    step s = .next { s with events := rest }

/-- 20_memory.md R52 for the registers, the read-only addresses and the reserved ones, while BUSY = 0: ILEN keeps bits
15:0, FLAG keeps bit 0, and a write to an address that is none of CMD, ILEN, FLAG and IBUF has no effect. The order of
events is the model's own field `events` (log entry 5). -/
def Obligations.HostWriteToRegisters : Prop :=
  ∀ (s : State) (a : HostAddr) (v : Word) (rest : List Event), s.busy = false → s.events = .write a v :: rest →
    (a = 0x0002#16 → step s = .next { s with events := rest, ilen := BitVec.ofNat 16 (v.toNat % 65536) }) ∧
    (a = 0x0004#16 → step s = .next { s with events := rest, flag := decide (v.toNat % 2 = 1) }) ∧
    (a = 0x0001#16 ∨ a = 0x0003#16 ∨ (5 ≤ a.toNat ∧ a.toNat < 0x4000) ∨ 0x4000 + Config.block.ibufDepth ≤ a.toNat →
      step s = .next { s with events := rest })

/-- 20_memory.md R52 for IBUF, while BUSY = 0: the word is stored in its entry; every other entry and everything else is
as before. The order of events is the model's own field `events` (log entry 5). -/
def Obligations.HostWriteToIbuf : Prop :=
  ∀ (s : State) (i : Nat) (a : HostAddr) (v : Word) (rest : List Event), s.busy = false →
    s.events = .write a v :: rest → i < Config.block.ibufDepth → a.toNat = 0x4000 + i →
    ∃ m : Memory, step s = .next { s with events := rest, ibuf := m } ∧ m.read i = some v ∧
      ∀ j, j ≠ i → m.read j = s.ibuf.read j

/-- 20_memory.md R53, while BUSY = 0: the word a host read returns, for the registers, the written buffer entries, and
the addresses that read as zero; an unwritten IBUF entry reads as some word (the model's free value, log entry 7).
Nothing else changes. A read of an unwritten OBUF entry is OnlyUnwrittenOutputReadsFault. The field `reply` that carries
the word to the host is the model's own (log entry 6). The order of events is the model's own field `events` (log entry
5). -/
def Obligations.HostReadWhileIdle : Prop :=
  ∀ (s : State) (a : HostAddr) (rest : List Event), s.busy = false → s.events = .read a :: rest →
    (a = 0x0001#16 → step s = .next { s with events := rest, reply := some (s.code.bits.setWidth 32) }) ∧
    (a = 0x0002#16 → step s = .next { s with events := rest, reply := some (s.ilen.setWidth 32) }) ∧
    (a = 0x0003#16 → step s = .next { s with events := rest, reply := some (s.olen.setWidth 32) }) ∧
    (a = 0x0004#16 → step s = .next { s with events := rest, reply := some (if s.flag then 1#32 else 0#32) }) ∧
    (∀ i w, i < Config.block.ibufDepth → a.toNat = 0x4000 + i → s.ibuf.read i = some w →
      step s = .next { s with events := rest, reply := some w }) ∧
    (∀ i, i < Config.block.ibufDepth → a.toNat = 0x4000 + i → s.ibuf.read i = none →
      ∃ w, step s = .next { s with events := rest, reply := some w, draws := s.draws + 1 }) ∧
    (∀ i w, i < Config.block.obufDepth → a.toNat = 0x8000 + i → s.obuf.read i = some w →
      step s = .next { s with events := rest, reply := some w }) ∧
    (a = 0x0000#16 ∨ (5 ≤ a.toNat ∧ a.toNat < 0x4000) ∨
        (0x4000 + Config.block.ibufDepth ≤ a.toNat ∧ a.toNat < 0x8000) ∨
        0x8000 + Config.block.obufDepth ≤ a.toNat →
      step s = .next { s with events := rest, reply := some 0x00000000#32 })

/-- 70_reset_and_hazards.md R236: while BUSY = 1 a read of OLEN, FLAG or any OBUF entry, written or not, returns some
word (the model's free value, log entry 7), and reads of STATUS, ILEN, IBUF, CMD and reserved addresses are as ever. The
field `reply` that carries the word to the host is the model's own (log entry 6). The order of events is the model's own
field `events` (log entry 5). -/
def Obligations.HostReadWhileBusy : Prop :=
  ∀ (s : State) (a : HostAddr) (rest : List Event), s.busy = true → s.events = .read a :: rest →
    (a = 0x0001#16 →
      step s = .next { s with events := rest, reply := some (0x80000000#32 ||| s.code.bits.setWidth 32) }) ∧
    (a = 0x0003#16 ∨ a = 0x0004#16 ∨ (0x8000 ≤ a.toNat ∧ a.toNat < 0x8000 + Config.block.obufDepth) →
      ∃ w, step s = .next { s with events := rest, reply := some w, draws := s.draws + 1 }) ∧
    (a = 0x0002#16 → step s = .next { s with events := rest, reply := some (s.ilen.setWidth 32) }) ∧
    (∀ i w, i < Config.block.ibufDepth → a.toNat = 0x4000 + i → s.ibuf.read i = some w →
      step s = .next { s with events := rest, reply := some w }) ∧
    (∀ i, i < Config.block.ibufDepth → a.toNat = 0x4000 + i → s.ibuf.read i = none →
      ∃ w, step s = .next { s with events := rest, reply := some w, draws := s.draws + 1 }) ∧
    (a = 0x0000#16 ∨ (5 ≤ a.toNat ∧ a.toNat < 0x4000) ∨
        (0x4000 + Config.block.ibufDepth ≤ a.toNat ∧ a.toNat < 0x8000) ∨
        0x8000 + Config.block.obufDepth ≤ a.toNat →
      step s = .next { s with events := rest, reply := some 0x00000000#32 })

/-- 10_state.md R36 and 20_memory.md R53: a host event is a model fault exactly when it is a read, while BUSY = 0, of an
OBUF entry that holds no value; the fault is UnwrittenOutput. A read of an unwritten IBUF entry is none. The order of
events is the model's own field `events` (log entry 5). -/
def Obligations.OnlyUnwrittenOutputReadsFault : Prop :=
  ∀ (s : State) (e : Event) (rest : List Event) (f : Fault), s.events = e :: rest → e ≠ .blockTurn →
    (step s = .fault f ↔ f = .unwrittenOutput ∧ s.busy = false ∧
      ∃ a i, e = .read a ∧ i < Config.block.obufDepth ∧ a.toNat = 0x8000 + i ∧ s.obuf.read i = none)

/-- 10_state.md R22 and the numbers of 60_exceptions.md R202: STATUS has BUSY in bit 31, zeros in bits 30:4 and CODE in
bits 3:0; OK is 0, TOO_SHORT 1, INVALID_SYMBOL 2, MALFORMED_HEADER 3, CHECKSUM_MISMATCH 4, BAD_COMMAND 5, BAD_LENGTH 6,
and no other value is produced. -/
def Obligations.StatusWordLayout : Prop :=
  (∀ s : State, s.statusWord.toNat = (if s.busy then 2 ^ 31 else 0) + s.code.bits.toNat ∧ s.code.bits.toNat ≤ 6) ∧
    StatusCode.ok.bits = 0#4 ∧ StatusCode.tooShort.bits = 1#4 ∧ StatusCode.invalidSymbol.bits = 2#4 ∧
    StatusCode.malformedHeader.bits = 3#4 ∧ StatusCode.checksumMismatch.bits = 4#4 ∧
    StatusCode.badCommand.bits = 5#4 ∧ StatusCode.badLength.bits = 6#4

/-! ## What each command computes

N is ILEN.N. Each statement says that the command goes on, for every state whose N is legal and whose read set has been
written, and what it leaves. What it leaves unchanged is said for all eight commands together below. -/

/-- 40_alphabet.md R104: SYM_AT. Output i is A(IBUF[i][9:0]). -/
def Obligations.SymAtResult : Prop :=
  ∀ s : State, s.ilen.toNat ≤ Config.block.ibufDepth → Written s.ibuf s.ilen.toNat →
    ∃ t, exec .symAt s = .next t ∧ t.code = .ok ∧ t.pend = none ∧ t.olen = s.ilen ∧
      ∀ i, i < s.ilen.toNat → t.obuf.read i = s.rom.entries[(s.ibuf.word i).toNat % 1024]?

/-- 40_alphabet.md R105: INDEX_OF. Output i is the index of IBUF[i] in the alphabet, or 0x400 when it is not in it; a
miss stops nothing. -/
def Obligations.IndexOfResult : Prop :=
  ∀ s : State, s.ilen.toNat ≤ Config.block.ibufDepth → Written s.ibuf s.ilen.toNat →
    ∃ t, exec .indexOf s = .next t ∧ t.code = .ok ∧ t.pend = none ∧ t.olen = s.ilen ∧
      ∀ i, i < s.ilen.toNat →
        (∀ g : Group, symbol s.rom g = s.ibuf.word i → t.obuf.read i = some (BitVec.ofNat 32 g.toNat)) ∧
        ((∀ g : Group, symbol s.rom g ≠ s.ibuf.word i) → t.obuf.read i = some 0x00000400#32)

/-- 41_bitpacker.md R132: PACK. The groups of pack over bits 7:0 of the entries, ceil(4N/5) of them. -/
def Obligations.PackResult : Prop :=
  ∀ s : State, s.ilen.toNat ≤ Config.block.ibufDepth → Written s.ibuf s.ilen.toNat →
    ∃ t, exec .pack s = .next t ∧ t.code = .ok ∧ t.pend = none ∧ t.olen.toNat = (4 * s.ilen.toNat + 4) / 5 ∧
      t.obuf.holds ((pack ((s.inputs s.ilen.toNat).map fun w => BitVec.ofNat 8 w.toNat)).map fun g =>
        BitVec.ofNat 32 g.toNat)

/-- 41_bitpacker.md R133, at the default FLAG_POLICY (log entry 3): UNPACK. The bytes of unpack_raw over bits 9:0 of the
entries, the last one dropped when FLAG.F = 1 and there is one. -/
def Obligations.UnpackResult : Prop :=
  ∀ s : State, s.ilen.toNat ≤ Config.block.ibufDepth → Written s.ibuf s.ilen.toNat →
    ∃ t, exec .unpack s = .next t ∧ t.code = .ok ∧ t.pend = none ∧
      t.olen.toNat = 5 * s.ilen.toNat / 4 - (if s.flag then 1 else 0) ∧
      t.obuf.holds (((unpackRaw ((s.inputs s.ilen.toNat).map fun w => BitVec.ofNat 10 w.toNat)).take
        t.olen.toNat).map fun b => BitVec.ofNat 32 b.toNat)

/-- 42_header.md R152 and R155: HDR_ENC with N = 5. Symbols 0 to 3 carry the 40-bit digest D, ten bits each from the
top; symbol 4 is A(1) or A(0) by FLAG.F. -/
def Obligations.HdrEncResult : Prop :=
  ∀ s : State, s.ilen.toNat = 5 → Written s.ibuf 5 →
    ∃ t, exec .hdrEnc s = .next t ∧ t.code = .ok ∧ t.pend = none ∧ t.olen = 5#16 ∧
      ∀ D : Nat,
        D = (s.ibuf.word 0).toNat % 256 * 2 ^ 32 + (s.ibuf.word 1).toNat % 256 * 2 ^ 24 +
            (s.ibuf.word 2).toNat % 256 * 2 ^ 16 + (s.ibuf.word 3).toNat % 256 * 2 ^ 8 +
            (s.ibuf.word 4).toNat % 256 →
        t.obuf.read 0 = s.rom.entries[D / 2 ^ 30]? ∧ t.obuf.read 1 = s.rom.entries[D / 2 ^ 20 % 1024]? ∧
        t.obuf.read 2 = s.rom.entries[D / 2 ^ 10 % 1024]? ∧ t.obuf.read 3 = s.rom.entries[D % 1024]? ∧
        t.obuf.read 4 = s.rom.entries[if s.flag then 1 else 0]?

/-- 42_header.md R153 and R155: HDR_DEC of a header whose five symbols are in the alphabet and whose flag index is 0 or
1. The digest's 40 bits come back as five bytes, and FLAG.F is written. Items 5 and up do not matter. -/
def Obligations.HdrDecResult : Prop :=
  ∀ (s : State) (g0 g1 g2 g3 : Group) (f : Bool), 5 ≤ s.ilen.toNat → s.ilen.toNat ≤ Config.block.ibufDepth →
    s.ibuf.read 0 = some (symbol s.rom g0) → s.ibuf.read 1 = some (symbol s.rom g1) →
    s.ibuf.read 2 = some (symbol s.rom g2) → s.ibuf.read 3 = some (symbol s.rom g3) →
    s.ibuf.read 4 = some (symbol s.rom (if f then 1#10 else 0#10)) →
    ∃ t, exec .hdrDec s = .next t ∧ t.code = .ok ∧ t.pend = none ∧ t.olen = 5#16 ∧ t.flag = f ∧
      ∀ k, k < 5 → t.obuf.read k = some (BitVec.ofNat 32
        ((g0.toNat * 2 ^ 30 + g1.toNat * 2 ^ 20 + g2.toNat * 2 ^ 10 + g3.toNat) / 2 ^ (8 * (4 - k)) % 256))

/-- 43_codec.md R173, R172 and R175: ENCODE. The header of the payload's digest and padding flag (1 exactly when N mod 5
is 4), then the packed payload, each index rendered through the alphabet. -/
def Obligations.EncodeResult : Prop :=
  ∀ s : State, s.ilen.toNat ≤ Config.block.ibufDepth → Written s.ibuf s.ilen.toNat →
    ∃ t, exec .encode s = .next t ∧ t.code = .ok ∧ t.pend = none ∧
      t.olen.toNat = 5 + (4 * s.ilen.toNat + 4) / 5 ∧
      ∀ bs, bs = (s.inputs s.ilen.toNat).map (fun w => BitVec.ofNat 8 w.toNat) →
        t.obuf.holds ((pack ((Config.block.hash256 bs).toList.take 5) ++
          [if s.ilen.toNat % 5 = 4 then 1#10 else 0#10] ++ pack bs).map (symbol s.rom))

/-- 43_codec.md R182, R180, at the default FLAG_POLICY (log entry 3): DECODE of a stream whose header carries the
truncated hash of the bytes that its payload groups `gs` unpack to. It succeeds and gives those bytes. -/
def Obligations.DecodeResult : Prop :=
  ∀ (s : State) (gs : List Group) (f : Bool) (bs : List Byte), bs = unpack .dropLast gs f →
    s.ilen.toNat = 5 + gs.length → s.ilen.toNat ≤ Config.block.ibufDepth →
    s.ibuf.holds ((pack ((Config.block.hash256 bs).toList.take 5) ++ [if f then 1#10 else 0#10] ++ gs).map
      (symbol s.rom)) →
    ∃ t, exec .decode s = .next t ∧ t.code = .ok ∧ t.pend = none ∧ t.olen.toNat = bs.length ∧
      t.obuf.holds (bs.map fun b => BitVec.ofNat 32 b.toNat)

/-! ## Failures and their order -/

/-- 60_exceptions.md R203, R206: BAD_LENGTH is reported exactly when N > IBUF_DEPTH or, for HDR_ENC, N is not 5; it is
checked before everything else and reads nothing. -/
def Obligations.BadLengthExactly : Prop :=
  ∀ (i : Instr) (s : State),
    (Config.block.ibufDepth < s.ilen.toNat ∨ (i = .hdrEnc ∧ s.ilen.toNat ≠ 5) →
      exec i s = .next { s with olen := 0#16, code := .badLength, pend := none }) ∧
    (∀ t, exec i s = .next t → t.code = .badLength →
      Config.block.ibufDepth < s.ilen.toNat ∨ (i = .hdrEnc ∧ s.ilen.toNat ≠ 5))

/-- 43_codec.md R190: DECODE with N at most 4 gives TOO_SHORT, whatever IBUF holds, written or not. -/
def Obligations.DecodeLengthFloor : Prop :=
  ∀ s : State, s.ilen.toNat ≤ 4 → exec .decode s = .next { s with olen := 0#16, code := .tooShort, pend := none }

/-- 42_header.md R153: HDR_DEC's failures in their order. N below 5; then a symbol of the five that is not in the
alphabet, even when the flag index is illegal too; then a flag index of 2 or more. FLAG and OBUF stay. -/
def Obligations.HdrDecFailures : Prop :=
  ∀ s : State,
    (s.ilen.toNat < 5 → exec .hdrDec s = .next { s with olen := 0#16, code := .tooShort, pend := none }) ∧
    (5 ≤ s.ilen.toNat → s.ilen.toNat ≤ Config.block.ibufDepth → Written s.ibuf 5 →
      ((∃ p, p < 5 ∧ ∀ g : Group, symbol s.rom g ≠ s.ibuf.word p) →
        exec .hdrDec s = .next { s with olen := 0#16, code := .invalidSymbol, pend := none }) ∧
      ((∀ p, p < 4 → ∃ g : Group, symbol s.rom g = s.ibuf.word p) →
        (∃ g : Group, 2 ≤ g.toNat ∧ symbol s.rom g = s.ibuf.word 4) →
        exec .hdrDec s = .next { s with olen := 0#16, code := .malformedHeader, pend := none }))

/-- 60_exceptions.md R206 orders 4 to 6: DECODE's symbol and header failures. A foreign header symbol wins over a flag
index; an illegal flag index wins over a foreign payload symbol. -/
def Obligations.DecodeSymbolFailuresInOrder : Prop :=
  ∀ s : State, 5 ≤ s.ilen.toNat → s.ilen.toNat ≤ Config.block.ibufDepth → Written s.ibuf s.ilen.toNat →
    ((∃ p, p < 5 ∧ ∀ g : Group, symbol s.rom g ≠ s.ibuf.word p) →
      exec .decode s = .next { s with olen := 0#16, code := .invalidSymbol, pend := none }) ∧
    ((∀ p, p < 4 → ∃ g : Group, symbol s.rom g = s.ibuf.word p) →
      (∃ g : Group, 2 ≤ g.toNat ∧ symbol s.rom g = s.ibuf.word 4) →
      exec .decode s = .next { s with olen := 0#16, code := .malformedHeader, pend := none }) ∧
    ((∀ p, p < 4 → ∃ g : Group, symbol s.rom g = s.ibuf.word p) →
      (∃ g : Group, g.toNat < 2 ∧ symbol s.rom g = s.ibuf.word 4) →
      (∃ p, 5 ≤ p ∧ p < s.ilen.toNat ∧ ∀ g : Group, symbol s.rom g ≠ s.ibuf.word p) →
      exec .decode s = .next { s with olen := 0#16, code := .invalidSymbol, pend := none })

/-- 43_codec.md R181, at the default FLAG_POLICY (log entry 3): DECODE of a stream of alphabet symbols with a legal flag
whose header digest differs from the truncated hash of the recovered bytes gives CHECKSUM_MISMATCH. -/
def Obligations.DecodeChecksumMismatch : Prop :=
  ∀ (s : State) (hs gs : List Group) (f : Bool), hs.length = 4 → s.ilen.toNat = 5 + gs.length →
    s.ilen.toNat ≤ Config.block.ibufDepth →
    s.ibuf.holds ((hs ++ [if f then 1#10 else 0#10] ++ gs).map (symbol s.rom)) →
    unpackRaw hs ≠ (Config.block.hash256 (unpack .dropLast gs f)).toList.take 5 →
    exec .decode s = .next { s with olen := 0#16, code := .checksumMismatch, pend := none }

/-- 60_exceptions.md R211: a command goes on exactly when its whole read set, fixed by the command and N alone, has been
written; otherwise it is the model fault UnwrittenInput. No command is refused. -/
def Obligations.CommandsFaultExactlyOnUnwrittenInput : Prop :=
  ∀ (i : Instr) (s : State),
    (Written s.ibuf (readCount Config.block.ibufDepth i s.ilen.toNat) → ∃ t, exec i s = .next t) ∧
    (¬ Written s.ibuf (readCount Config.block.ibufDepth i s.ilen.toNat) → exec i s = .fault .unwrittenInput)

/-- 60_exceptions.md R201, R203: every command that goes on clears PEND, which is STATUS.BUSY, and leaves its code in
STATUS. SYM_AT, INDEX_OF, PACK, UNPACK, HDR_ENC and ENCODE raise no codec failure, and only DECODE raises
CHECKSUM_MISMATCH. No command raises BAD_COMMAND: that is the reserved OPs' code. -/
def Obligations.CommandsEndWithACode : Prop :=
  ∀ (i : Instr) (s t : State), exec i s = .next t →
    t.pend = none ∧ t.statusWord = t.code.bits.setWidth 32 ∧
    t.code ≠ .badCommand ∧ (t.code = .checksumMismatch → i = .decode) ∧
    (i ≠ .hdrDec → i ≠ .decode → t.code = .ok ∨ t.code = .badLength)

/-! ## Frames -/

/-- 20_memory.md R55: no command writes IBUF, ILEN or the ROM. CMD.OP (log entry 9) and the model's own fields (log
entries 5, 6 and 7) stay too. All eight commands. -/
def Obligations.CommandsKeepTheirInputs : Prop :=
  ∀ (i : Instr) (s t : State), exec i s = .next t →
    t.ibuf = s.ibuf ∧ t.ilen = s.ilen ∧ t.rom = s.rom ∧ t.cmdOp = s.cmdOp ∧ t.events = s.events ∧
      t.reply = s.reply ∧ t.draws = s.draws

/-- 10_state.md R34: no command writes FLAG.F, except HDR_DEC on success. All eight commands. -/
def Obligations.OnlyHdrDecWritesFlag : Prop :=
  ∀ (i : Instr) (s t : State), exec i s = .next t → (i ≠ .hdrDec ∨ t.code ≠ .ok) → t.flag = s.flag

/-- 10_state.md R28: a command writes OBUF[0..OLEN.N-1] only, for the OLEN.N it leaves; every other entry reads as
before. All eight commands. -/
def Obligations.CommandsWriteOnlyTheirOutput : Prop :=
  ∀ (i : Instr) (s t : State), exec i s = .next t → ∀ j, t.olen.toNat ≤ j → t.obuf.read j = s.obuf.read j

/-- 60_exceptions.md R205 and 43_codec.md R183: a failed command changes OLEN (to 0), CODE, BUSY and PEND, and nothing
else: no byte of a failed decode becomes visible. All eight commands. -/
def Obligations.FailureIsAllOrNothing : Prop :=
  ∀ (i : Instr) (s t : State), exec i s = .next t → t.code ≠ .ok →
    t = { s with olen := 0#16, code := t.code, pend := none }

/-- 43_codec.md R187: the result of a command, which is what the host can observe of it (60_exceptions.md R214) and the
FLAG that it leaves, depends only on the command, ILEN, FLAG, the ROM and the entries of its read set: not on OBUF, on
earlier commands, or on any other entry of IBUF. -/
def Obligations.ResultDependsOnTheReadSetOnly : Prop :=
  ∀ (i : Instr) (s s' t : State), s.ilen = s'.ilen → s.flag = s'.flag → s.rom = s'.rom →
    (∀ j, j < readCount Config.block.ibufDepth i s.ilen.toNat → s.ibuf.read j = s'.ibuf.read j) →
    exec i s = .next t →
    ∃ t', exec i s' = .next t' ∧ t'.observe (opOf i) = t.observe (opOf i) ∧ t'.flag = t.flag

/-! ## The machine as a whole -/

/-- The machine's invariant (Safety.lean: canonical buffers within their depths, CODE 0 while busy, OLEN at most
OBUF_DEPTH, OBUF[0..OLEN.N-1] written) is kept by every step from every state that meets it. -/
def Obligations.StepKeepsInvariant : Prop :=
  ∀ s t : State, Inv Config.block s → step s = .next t → Inv Config.block t

/-- The reset state meets the invariant. -/
def Obligations.ResetMeetsInvariant : Prop := Inv Config.block State.reset

/-- 70_reset_and_hazards.md R237: in every state that meets the invariant, while BUSY = 0, a host read of OBUF[j] with j
below OLEN.N returns the entry's word and is no fault. The fields `events` and `reply` are the model's own (log entries 5
and 6). -/
def Obligations.HostCanReadEveryResult : Prop :=
  ∀ (s : State) (j : Nat) (rest : List Event), Inv Config.block s → s.busy = false → j < s.olen.toNat →
    s.events = .read (BitVec.ofNat 16 (0x8000 + j)) :: rest →
    ∃ w, s.obuf.read j = some w ∧ step s = .next { s with events := rest, reply := some w }

/-- 60_exceptions.md R213: a pending command finishes once the accesses ahead of it, each a read or a write, are made:
afterwards nothing is pending. The only way to stop is a model fault of the command. The order of events is the model's
own field `events` (log entry 5). -/
def Obligations.PendingCommandFinishes : Prop :=
  ∀ s : State, s.busy = true →
    (∀ e ∈ s.events, (∃ a, e = Event.read a) ∨ ∃ a v, e = Event.write a v) →
    (∃ t, runSteps (s.events.length + 1) s = .next t ∧ t.pend = none ∧ t.events = []) ∨
      runSteps (s.events.length + 1) s = .fault Fault.unwrittenInput

/-- 20_memory.md R60: a command reads the operands that the host writes before the starting CMD write left there. After
a CMD write while BUSY = 0 and any reads and writes while the command is pending, the block's turn runs the command on
ILEN, FLAG, IBUF, OBUF and the ROM as they were at the CMD write. That CMD.OP holds the written bits is the model's
reading (log entry 9); the events, the reply `r` and the draws `n` are the model's own (log entries 5, 6 and 7). -/
def Obligations.CommandSeesTheOperandsOfItsStart : Prop :=
  ∀ (s : State) (v : Word) (i : Instr) (es : List Event), s.busy = false → decode v = .ok i →
    (∀ e ∈ es, (∃ a, e = Event.read a) ∨ ∃ a w, e = Event.write a w) →
    s.events = .write 0x0000#16 v :: (es ++ [Event.blockTurn]) →
    ∃ (r : Option Word) (n : Nat), runSteps (es.length + 2) s =
      exec i { s with cmdOp := v.extractLsb' 0 4, pend := some (v.extractLsb' 0 4), code := .ok, events := [], reply := r, draws := n }

/-- 30_encoding.md R83 and 20_memory.md R61: the label, the read and the branch of a `poll` read STATUS, then go back to
the label while BUSY = 1 and on to the next statement when BUSY = 0; the block's state does not change. The label stands
nowhere earlier in the program, so it is the one the branch goes to. That a program is a list of statements and where a
label is are log entry 16; the fields `reply` and `events` are the model's own (log entries 5 and 6). -/
def Obligations.PollLeavesExactlyWhenNotBusy : Prop :=
  ∀ (prog : List HostStmt) (y : System) (k p : Nat), y.agent.halted = false → y.agent.todo = [] →
    prog[p]? = some (.label (.pollLoop k)) → (∀ q, q < p → prog[q]? ≠ some (.label (.pollLoop k))) →
    prog[p + 1]? = some (.rd .pollWord .status) →
    prog[p + 2]? = some (.bnz .pollWord 0x80000000#32 (.pollLoop k)) → y.agent.pc = p →
    ∃ y1 y2 y3, System.step prog .host y = .next y1 ∧ System.step prog .host y1 = .next y2 ∧
      System.step prog .host y2 = .next y3 ∧
      y3.block = { y.block with events := [], reply := some y.block.statusWord } ∧
      y3.agent.halted = false ∧ y3.agent.todo = [] ∧ y3.agent.pc = if y.block.busy then p else p + 3

/-- 00_scope.md R7, its five items spelled out, and 60_exceptions.md R211: a configuration that meets them is never
refused, at reset or at a step, and its alphabet is the ROM; one that breaks any of them is refused, whatever the state.
SYM_W outside 1 to 32 is refused too, by the type that R6 gives it (log entry 4). `step` is the configured step of the
block's configuration (log entries 3 and 4). -/
def Obligations.BadConfigurationIsRefused : Prop :=
  (∀ (c : Config) (r7 : Prop), 1 ≤ c.symW → c.symW ≤ 32 →
    (r7 ↔
      c.alphabet.length = 1024 ∧
      (∀ x ∈ c.alphabet, x.toNat < 2 ^ c.symW) ∧
      (∀ i a b, c.alphabet[i]? = some a → c.alphabet[i + 1]? = some b → a.toNat < b.toNat) ∧
      (5 ≤ c.ibufDepth ∧ c.ibufDepth ≤ 16384) ∧
      (5 * c.ibufDepth / 4 ≤ c.obufDepth ∧ 5 + (4 * c.ibufDepth + 4) / 5 ≤ c.obufDepth ∧ c.obufDepth ≤ 32768)) →
    (r7 → (∃ t, resetConfigured c = .next t ∧ t.rom.entries = c.alphabet) ∧ ∀ s r, stepConfigured c s ≠ .refused r) ∧
    (¬ r7 → resetConfigured c = .refused .badConfiguration ∧ ∀ s, stepConfigured c s = .refused .badConfiguration)) ∧
  (∀ c : Config, c.symW = 0 ∨ 32 < c.symW →
    resetConfigured c = .refused .badConfiguration ∧ ∀ s, stepConfigured c s = .refused .badConfiguration) ∧
  (∀ s, step s = stepConfigured Config.block s)

/-- 00_scope.md R7 item 5: at every well-formed configuration no command's output overflows OBUF: OLEN.N counts at most
OBUF_DEPTH entries, all of them hold a value, and nothing is stored at an index of OBUF_DEPTH or more. -/
def Obligations.OutputFitsObuf : Prop :=
  ∀ (c : Config) (i : Instr) (s t : State), c.wf = true → runCommand c i s = .next t →
    t.olen.toNat ≤ c.obufDepth ∧ Written t.obuf t.olen.toNat ∧
    ∀ j, c.obufDepth ≤ j → t.obuf.read j = s.obuf.read j

/-! ## The alphabet -/

/-- 40_alphabet.md R103: on every well-formed alphabet the ten-probe binary search is the membership lookup, for every
32-bit word. -/
def Obligations.BinarySearchIsLookup : Prop := ∀ (rom : Alphabet) (s : Word), bsearch rom s = lookup rom s

/-- 40_alphabet.md R106: forward and reverse lookup are inverse. -/
def Obligations.AlphabetIsBijective : Prop :=
  ∀ rom : Alphabet, (∀ g : Group, lookup rom (symbol rom g) = some g) ∧
    ∀ (s : Word) (g : Group), lookup rom s = some g → symbol rom g = s

/-! ## The packer -/

/-- 41_bitpacker.md R120: the groups of pack, concatenated most significant bit first, are the bits of the bytes followed
by zeros up to a whole group. -/
def Obligations.PackReproducesTheBitStream : Prop :=
  ∀ bs : List Byte, groupsToBits (pack bs) =
    bytesToBits bs ++ List.replicate (10 * (pack bs).length - 8 * bs.length) false ∧
    (pack bs).length = (4 * bs.length + 4) / 5

/-- 41_bitpacker.md R123: the bytes of unpack_raw, concatenated most significant bit first, are the bits of the groups
without the last 10k mod 8. -/
def Obligations.UnpackRawReproducesTheBitStream : Prop :=
  ∀ gs : List Group, bytesToBits (unpackRaw gs) =
    (groupsToBits gs).take (10 * gs.length - 10 * gs.length % 8) ∧ (unpackRaw gs).length = 5 * gs.length / 4

/-- 30_encoding.md R78: one window. Five bytes and the four groups that carry the same 40 bits, both ways. -/
def Obligations.WindowTable : Prop :=
  ∀ X : BitVec 40,
    pack [X.extractLsb' 32 8, X.extractLsb' 24 8, X.extractLsb' 16 8, X.extractLsb' 8 8, X.extractLsb' 0 8] =
      [X.extractLsb' 30 10, X.extractLsb' 20 10, X.extractLsb' 10 10, X.extractLsb' 0 10] ∧
    unpackRaw [X.extractLsb' 30 10, X.extractLsb' 20 10, X.extractLsb' 10 10, X.extractLsb' 0 10] =
      [X.extractLsb' 32 8, X.extractLsb' 24 8, X.extractLsb' 16 8, X.extractLsb' 8 8, X.extractLsb' 0 8]

/-- 41_bitpacker.md R122 and R125: the packer works window by window, both ways. -/
def Obligations.PackerWorksWindowByWindow : Prop :=
  (∀ ws bs : List Byte, ws.length % 5 = 0 → pack (ws ++ bs) = pack ws ++ pack bs) ∧
  (∀ us gs : List Group, us.length % 4 = 0 → unpackRaw (us ++ gs) = unpackRaw us ++ unpackRaw gs)

/-- 41_bitpacker.md R130: the accumulator machines equal the packing functions on every input. -/
def Obligations.ReferenceMachinesEqualThePackingFunctions : Prop :=
  (∀ bs : List Byte, packSm bs = pack bs) ∧ ∀ gs : List Group, unpackSm gs = unpackRaw gs

/-- 41_bitpacker.md R131: packer round trip. unpack_raw gives the bytes back, with one more zero byte exactly when n mod
5 is 4; with the flag of the length, unpack gives them back under both policies. -/
def Obligations.PackerRoundTrip : Prop :=
  ∀ bs : List Byte, unpackRaw (pack bs) = (if bs.length % 5 = 4 then bs ++ [0x00#8] else bs) ∧
    ∀ p : FlagPolicy, unpack p (pack bs) (flagOf bs.length) = bs

/-- 41_bitpacker.md R126: what flag 1 drops. Flag 0 keeps every byte; flag 1 drops the last byte when the bit count is a
multiple of 8, and otherwise by FLAG_POLICY; with no byte nothing is dropped. -/
def Obligations.RemainderResolution : Prop :=
  ∀ (p : FlagPolicy) (gs : List Group),
    unpack p gs false = unpackRaw gs ∧ unpack p [] true = [] ∧
    (10 * gs.length % 8 = 0 → unpack p gs true = (unpackRaw gs).take (5 * gs.length / 4 - 1)) ∧
    unpack .dropLast gs true = (unpackRaw gs).take (5 * gs.length / 4 - 1) ∧
    (10 * gs.length % 8 ≠ 0 → unpack .dropIfAligned gs true = unpackRaw gs)

/-- 41_bitpacker.md R127: the bits that unpack drops are not checked. Two last groups that agree above the tail bits
give the same bytes; with flag 1 and k mod 4 = 0, two that agree in bits 9:8 do. -/
def Obligations.DroppedBitsAreNotChecked : Prop :=
  ∀ (p : FlagPolicy) (gs : List Group) (g g' : Group) (f : Bool),
    (g.toNat / 2 ^ (10 * (gs.length + 1) % 8) = g'.toNat / 2 ^ (10 * (gs.length + 1) % 8) →
      unpack p (gs ++ [g]) f = unpack p (gs ++ [g']) f) ∧
    ((gs.length + 1) % 4 = 0 → g.toNat / 256 = g'.toNat / 256 →
      unpack p (gs ++ [g]) true = unpack p (gs ++ [g']) true)

/-- 43_codec.md R170: the padding flag is set exactly when n mod 5 is 4, which is when the last payload group has exactly
two meaningful bits. -/
def Obligations.PaddingFlagRule : Prop :=
  ∀ n : Nat, (flagOf n = true ↔ n % 5 = 4) ∧
    (flagOf n = true ↔ 0 < n ∧ 8 * n - 10 * ((4 * n + 4) / 5 - 1) = 2)

/-! ## The header and the stream, for every configuration and every alphabet -/

/-- 42_header.md R154: a rendered header decodes to its digest and flag, and distinct digests or flags give distinct
headers. -/
def Obligations.HeaderRoundTrip : Prop :=
  ∀ (rom : Alphabet) (d : List Byte) (f : Bool), d.length = 5 →
    hdrDecode rom ((hdrEncode d f).map (symbol rom)) = .ok (d, f) ∧
    ∀ (d' : List Byte) (f' : Bool), d'.length = 5 → hdrEncode d f = hdrEncode d' f' → d = d' ∧ f = f'

/-- 43_codec.md R186: decode of encode gives the bytes back, for every byte sequence, every HASH256, every alphabet and
both flag policies. -/
def Obligations.StreamRoundTrip : Prop :=
  ∀ (c : Config) (rom : Alphabet) (bs : List Byte),
    decodeStream c rom ((encodeStream c bs).map (symbol rom)) = .ok bs

/-- 43_codec.md R186 at command level: ENCODE, then the host moves the output to the input (`loopback`), then DECODE,
returns the original bytes with CODE = OK. -/
def Obligations.CommandRoundTrip : Prop :=
  ∀ s t u : State, s.ilen.toNat ≤ Config.block.ibufDepth → exec .encode s = .next t → u.rom = s.rom →
    u.ilen = t.olen → (∀ j, j < t.olen.toNat → u.ibuf.read j = t.obuf.read j) →
    ∃ v, exec .decode u = .next v ∧ v.code = .ok ∧ v.olen = s.ilen ∧
      ∀ i, i < s.ilen.toNat → v.obuf.read i = some (BitVec.ofNat 32 ((s.ibuf.word i).toNat % 256))

/-- 43_codec.md R189: a valid encoding with the symbol at any one position replaced by a word that is not in the
alphabet gives INVALID_SYMBOL. -/
def Obligations.ForeignSymbolIsRejected : Prop :=
  ∀ (c : Config) (rom : Alphabet) (bs : List Byte) (p : Nat) (x : Word), p < (encodeStream c bs).length →
    (∀ g : Group, symbol rom g ≠ x) →
    decodeStream c rom (((encodeStream c bs).map (symbol rom)).set p x) = .error .invalidSymbol

/-- 43_codec.md R188, header positions: another symbol at a digest position gives CHECKSUM_MISMATCH, always; a flag index
of 2 or more gives MALFORMED_HEADER, always; a flag 1 made 0 gives CHECKSUM_MISMATCH unless the digests of bs and of
bs ++ [0x00] collide; a flag 0 made 1, under DROP_LAST and with a payload, gives CHECKSUM_MISMATCH unless the digests of
bs and of bs without its last byte collide. Under DROP_IF_ALIGNED with k mod 4 not 0 that last change is not detected:
DECODE still gives the bytes (90_conflicts.md C6). -/
def Obligations.TamperedHeaderIsDetected : Prop :=
  ∀ (c : Config) (rom : Alphabet) (bs : List Byte),
    (∀ (p : Nat) (g : Group), p < 4 → (encodeStream c bs)[p]? ≠ some g →
      decodeStream c rom (((encodeStream c bs).set p g).map (symbol rom)) = .error .checksumMismatch) ∧
    (∀ g : Group, 2 ≤ g.toNat →
      decodeStream c rom (((encodeStream c bs).set 4 g).map (symbol rom)) = .error .malformedHeader) ∧
    (bs.length % 5 = 4 → hash5 c (bs ++ [0x00#8]) ≠ hash5 c bs →
      decodeStream c rom (((encodeStream c bs).set 4 0#10).map (symbol rom)) = .error .checksumMismatch) ∧
    (bs.length % 5 ≠ 4 → bs ≠ [] → c.flagPolicy = .dropLast → hash5 c bs.dropLast ≠ hash5 c bs →
      decodeStream c rom (((encodeStream c bs).set 4 1#10).map (symbol rom)) = .error .checksumMismatch) ∧
    ((pack bs).length % 4 ≠ 0 → c.flagPolicy = .dropIfAligned →
      decodeStream c rom (((encodeStream c bs).set 4 1#10).map (symbol rom)) = .ok bs)

/-- 43_codec.md R188, payload positions before the last: another alphabet symbol there changes the recovered bytes at
the same length, and DECODE reports CHECKSUM_MISMATCH unless their digests collide. -/
def Obligations.TamperedPayloadIsDetected : Prop :=
  ∀ (c : Config) (rom : Alphabet) (bs : List Byte) (p : Nat) (g : Group), 5 ≤ p →
    p + 1 < (encodeStream c bs).length → (encodeStream c bs)[p]? ≠ some g →
    ∃ bs' : List Byte, bs' ≠ bs ∧ bs'.length = bs.length ∧
      decodeStream c rom (((encodeStream c bs).set p g).map (symbol rom)) =
        if hash5 c bs' = hash5 c bs then .ok bs' else .error .checksumMismatch
end

