-- ==== Sys2Proof/Laws/Alphabet.lean ====
section
/-! SUPPORT. The alphabet ROM and the search over it: that the entries rise, the test alphabet's entries, and what a
lookup of several symbols answers. -/

namespace Sys2Proof.Machine

theorem ascending_tail {a : Word} {l : List Word} (h : ascending (a :: l) = true) : ascending l = true := by
  cases l with
  | nil => rfl
  | cons b l => simp [ascending] at h; exact h.2

/-- Neighbours rising means that all entries rise. -/
theorem ascending_pairwise {l : List Word} (h : ascending l = true) : l.Pairwise (· < ·) := by
  induction l with
  | nil => exact .nil
  | cons a l ih =>
    have ih := ih (ascending_tail h)
    refine List.pairwise_cons.mpr ⟨fun x hx => ?_, ih⟩
    cases l with
    | nil => simp at hx
    | cons b l =>
      have hab : a < b := by simp [ascending] at h; exact h.1
      rcases List.mem_cons.mp hx with rfl | hx
      · exact hab
      · exact BitVec.lt_trans hab ((List.pairwise_cons.mp ih).1 x hx)

/-- A later symbol of the ROM is a larger word. -/
theorem symbol_lt {rom : Alphabet} {g h : Group} (hlt : g.toNat < h.toNat) : symbol rom g < symbol rom h :=
  List.pairwise_iff_getElem.mp (ascending_pairwise rom.sorted) _ _ _ _ hlt

/-- Distinct groups have distinct symbols (40_alphabet.md R106). -/
theorem symbol_injective {rom : Alphabet} {g h : Group} (e : symbol rom g = symbol rom h) : g = h := by
  rcases Nat.lt_trichotomy g.toNat h.toNat with hlt | heq | hlt
  · exact absurd e (BitVec.ne_of_lt (symbol_lt hlt))
  · exact BitVec.eq_of_toNat_eq heq
  · exact absurd e.symm (BitVec.ne_of_lt (symbol_lt hlt))

theorem countUp_getElem (base n i : Nat) (h : i < (countUp base n).length) :
    (countUp base n)[i] = BitVec.ofNat 32 (base + i) := by
  induction n generalizing base i with
  | zero => simp [countUp] at h
  | succ n ih =>
    cases i with
    | zero => simp [countUp]
    | succ i =>
      simp only [countUp, List.getElem_cons_succ]
      rw [ih]
      congr 1
      omega

/-- The symbols of the test alphabet (95_test_vectors.md): index g renders as 0x4E00 + g. -/
theorem symbol_test (g : Group) : symbol Alphabet.test g = BitVec.ofNat 32 (0x4E00 + g.toNat) :=
  countUp_getElem _ _ _ _

/-- A word outside 0x4E00 to 0x51FF is no symbol of the test alphabet. -/
theorem symbol_test_ne {w : Word} (h : w.toNat < 0x4E00 ∨ 0x51FF < w.toNat) (g : Group) :
    symbol Alphabet.test g ≠ w := by
  intro e
  have hg := g.isLt
  have := congrArg BitVec.toNat e
  rw [symbol_test, BitVec.toNat_ofNat] at this
  omega

/-- A found group's symbol is the word searched for: the final equality check of 40_alphabet.md R102. -/
theorem bsearch_sound {rom : Alphabet} {s : Word} {g : Group} (h : bsearch rom s = some g) : symbol rom g = s := by
  simp only [bsearch] at h
  split at h
  · rename_i he
    cases h
    exact he
  · cases h

/-- A search over several symbols that finds all of them answers one group each. -/
theorem bsearchAll_sound {rom : Alphabet} {ss : List Word} {gs : List Group} (h : bsearchAll rom ss = some gs) :
    gs.map (symbol rom) = ss := by
  induction ss generalizing gs with
  | nil => cases h; rfl
  | cons s ss ih =>
    simp only [bsearchAll] at h
    split at h
    · cases h
    · rename_i g hg
      split at h
      · cases h
      · rename_i gs' hgs
        cases h
        simp [bsearch_sound hg, ih hgs]

theorem bsearchAll_length {rom : Alphabet} {ss : List Word} {gs : List Group} (h : bsearchAll rom ss = some gs) :
    gs.length = ss.length := by
  rw [← bsearchAll_sound h, List.length_map]

end Sys2Proof.Machine
end

