-- ==== Sys2Proof/Laws/Memory.lean ====
section
/-! SUPPORT. The laws of the buffers: reading after writing, and that every operation keeps the canonical form and the
depth. -/

namespace Sys2Proof.Machine

@[simp] theorem Memory.read_nil (i : Nat) : Memory.read [] i = none := rfl

@[simp] theorem Memory.read_write_same (m : Memory) (i : Nat) (w : Word) : (m.write i w).read i = some w := by
  induction m with
  | nil => simp [Memory.write, Memory.read]
  | cons p m ih =>
    obtain ⟨j, v⟩ := p
    simp only [Memory.write]
    split
    · simp [Memory.read]
    · split
      · simp [Memory.read]
      · rename_i h; simpa [Memory.read, h] using ih

theorem Memory.read_write_other (m : Memory) {i j : Nat} (w : Word) (h : j ≠ i) :
    (m.write i w).read j = m.read j := by
  induction m with
  | nil => simp [Memory.write, Memory.read, h]
  | cons p m ih =>
    obtain ⟨k, v⟩ := p
    simp only [Memory.write]
    split
    · simp [Memory.read, h]
    · split
      · rename_i hik; subst hik; simp [Memory.read, h]
      · simp [Memory.read, ih]

theorem Memory.read_write (m : Memory) (i j : Nat) (w : Word) :
    (m.write i w).read j = if j = i then some w else m.read j := by
  split
  · rename_i h; subst h; simp
  · rename_i h; exact m.read_write_other w h

/-- A cell of a buffer after a write is the written one or an old one. -/
theorem Memory.mem_write {m : Memory} {i : Nat} {w : Word} {p : Nat × Word} (h : p ∈ m.write i w) :
    p = (i, w) ∨ p ∈ m := by
  induction m with
  | nil => simpa [Memory.write] using h
  | cons q m ih =>
    obtain ⟨j, v⟩ := q
    simp only [Memory.write] at h
    split at h
    · simpa using h
    · split at h
      · rcases List.mem_cons.mp h with h | h
        · exact .inl h
        · exact .inr (List.mem_cons_of_mem _ h)
      · rcases List.mem_cons.mp h with h | h
        · exact .inr (h ▸ List.mem_cons_self)
        · exact (ih h).imp id (List.mem_cons_of_mem _)

theorem Memory.write_wf {m : Memory} (i : Nat) (w : Word) (h : m.wf) : (m.write i w).wf := by
  induction m with
  | nil => simp [Memory.write, Memory.wf]
  | cons p m ih =>
    obtain ⟨j, v⟩ := p
    obtain ⟨hhead, htail⟩ := List.pairwise_cons.mp h
    simp only [Memory.write]
    split
    · rename_i hij
      refine List.pairwise_cons.mpr ⟨fun q hq => ?_, h⟩
      rcases List.mem_cons.mp hq with hq | hq
      · simpa [hq] using hij
      · exact hij.trans (hhead q hq)
    · split
      · rename_i hij; subst hij; exact List.pairwise_cons.mpr ⟨hhead, htail⟩
      · refine List.pairwise_cons.mpr ⟨fun q hq => ?_, ih htail⟩
        rcases Memory.mem_write hq with rfl | hq
        · show j < i; omega
        · exact hhead q hq

theorem Memory.write_within {m : Memory} {d i : Nat} (w : Word) (hi : i < d) (h : m.within d) :
    (m.write i w).within d := fun _ hp =>
  (Memory.mem_write hp).elim (fun e => by simpa [e] using hi) (h _)

/-! ## Runs of words -/

theorem Memory.writeFrom_wf {m : Memory} (i : Nat) (ws : List Word) (h : m.wf) : (m.writeFrom i ws).wf := by
  induction ws generalizing m i with
  | nil => exact h
  | cons w ws ih => exact ih _ (Memory.write_wf i w h)

theorem Memory.writeFrom_within {m : Memory} {d i : Nat} {ws : List Word} (hd : i + ws.length ≤ d)
    (h : m.within d) : (m.writeFrom i ws).within d := by
  induction ws generalizing m i with
  | nil => exact h
  | cons w ws ih =>
    simp only [List.length_cons] at hd
    exact ih (by omega) (Memory.write_within w (by omega) h)

/-- What a buffer holds after `ws` is stored from `i` up: the words of `ws` there, and everything else as before. -/
theorem Memory.read_writeFrom (m : Memory) (i : Nat) (ws : List Word) (j : Nat) :
    (m.writeFrom i ws).read j = if i ≤ j ∧ j < i + ws.length then ws[j - i]? else m.read j := by
  induction ws generalizing m i with
  | nil =>
    simp [Memory.writeFrom]
  | cons w ws ih =>
    simp only [Memory.writeFrom, ih, Memory.read_write, List.length_cons]
    by_cases h1 : i + 1 ≤ j ∧ j < i + 1 + ws.length
    · have h2 : i ≤ j ∧ j < i + (ws.length + 1) := by omega
      have h3 : j - i = (j - (i + 1)) + 1 := by omega
      rw [if_pos h1, if_pos h2, h3, List.getElem?_cons_succ]
    · by_cases h4 : j = i
      · have h5 : i ≤ j ∧ j < i + (ws.length + 1) := by omega
        rw [if_neg h1, if_pos h4, if_pos h5]; simp [h4]
      · have h5 : ¬ (i ≤ j ∧ j < i + (ws.length + 1)) := by omega
        rw [if_neg h1, if_neg h4, if_neg h5]

/-- Reading n entries succeeds exactly where all of them have been written. -/
theorem Memory.readFrom_isSome (m : Memory) (i n : Nat) :
    (m.readFrom i n).isSome = true ↔ ∀ k, k < n → (m.read (i + k)).isSome = true := by
  induction n generalizing i with
  | zero => simp [Memory.readFrom]
  | succ n ih =>
    simp only [Memory.readFrom]
    constructor
    · intro h k hk
      cases hr : m.read i with
      | none => simp [hr] at h
      | some w =>
        cases hrest : m.readFrom (i + 1) n with
        | none => simp [hr, hrest] at h
        | some ws =>
          cases k with
          | zero => simp [hr]
          | succ k =>
            have := (ih (i + 1)).mp (by simp [hrest]) k (by omega)
            rwa [show i + 1 + k = i + (k + 1) by omega] at this
    · intro h
      have h0 := h 0 (by omega)
      simp only [Nat.add_zero] at h0
      have hrest : (m.readFrom (i + 1) n).isSome = true :=
        (ih (i + 1)).mpr fun k hk => by
          have := h (k + 1) (by omega)
          rwa [show i + (k + 1) = i + 1 + k by omega] at this
      obtain ⟨w, hw⟩ := Option.isSome_iff_exists.mp h0
      obtain ⟨ws, hws⟩ := Option.isSome_iff_exists.mp hrest
      simp [hw, hws]

theorem Memory.readFrom_eq {m : Memory} {i n : Nat} (h : ∀ k, k < n → (m.read (i + k)).isSome = true) :
    m.readFrom i n = some ((List.range n).map fun k => m.word (i + k)) := by
  induction n generalizing i with
  | zero => simp [Memory.readFrom]
  | succ n ih =>
    have h0 := h 0 (by omega)
    simp only [Nat.add_zero] at h0
    obtain ⟨w, hw⟩ := Option.isSome_iff_exists.mp h0
    have hrest := ih (i := i + 1) fun k hk => by
      have := h (k + 1) (by omega)
      rwa [show i + (k + 1) = i + 1 + k by omega] at this
    simp only [Memory.readFrom, hw, hrest, List.range_succ_eq_map, List.map_cons, List.map_map]
    congr 2
    · simp [Memory.word, hw]
    · refine List.map_congr_left fun k _ => ?_
      simp only [Function.comp, show i + 1 + k = i + (k + 1) by omega]

/-- IBUF[0..n-1] all written: a command reads exactly its words. -/
theorem State.withInput_written {s : State} {n : Nat} (k : List Word → State) (h : Written s.ibuf n) :
    s.withInput n k = .next (k (s.inputs n)) := by
  have := Memory.readFrom_eq (m := s.ibuf) (i := 0) (n := n) (by simpa using h)
  simp only [State.withInput, this, State.inputs, Nat.zero_add]

/-- Some entry of IBUF[0..n-1] is unwritten: the command is a model fault (10_state.md R36). -/
theorem State.withInput_unwritten {s : State} {n : Nat} (k : List Word → State) (h : ¬ Written s.ibuf n) :
    s.withInput n k = .fault .unwrittenInput := by
  have hn : s.ibuf.readFrom 0 n = none := by
    by_contra hc
    exact h (by simpa using (Memory.readFrom_isSome s.ibuf 0 n).mp (Option.isSome_iff_ne_none.mpr hc))
  simp only [State.withInput, hn]

/-- The one way out of `withInput` with a next state. -/
theorem State.withInput_next {s t : State} {n : Nat} {k : List Word → State} (h : s.withInput n k = .next t) :
    Written s.ibuf n ∧ t = k (s.inputs n) := by
  by_cases hw : Written s.ibuf n
  · rw [State.withInput_written k hw] at h
    cases h
    exact ⟨hw, rfl⟩
  · rw [State.withInput_unwritten k hw] at h
    cases h

@[simp] theorem State.inputs_length (s : State) (n : Nat) : (s.inputs n).length = n := by simp [State.inputs]

end Sys2Proof.Machine
end

