-- ==== Sys2Proof/Laws/Packer.lean ====
section
/-! SUPPORT. Lengths of the bit strings and of what the packer makes of them (41_bitpacker.md R121, R124, R136). -/

namespace Sys2Proof.Machine

@[simp] theorem bitsOf_length {w : Nat} (v : BitVec w) : (bitsOf v).length = w := by simp [bitsOf]

@[simp] theorem bytesToBits_nil : bytesToBits [] = [] := rfl

@[simp] theorem bytesToBits_cons (b : Byte) (bs : List Byte) : bytesToBits (b :: bs) = bitsOf b ++ bytesToBits bs := by
  simp [bytesToBits]

@[simp] theorem groupsToBits_nil : groupsToBits [] = [] := rfl

@[simp] theorem groupsToBits_cons (g : Group) (gs : List Group) :
    groupsToBits (g :: gs) = bitsOf g ++ groupsToBits gs := by
  simp [groupsToBits]

@[simp] theorem bytesToBits_length (bs : List Byte) : (bytesToBits bs).length = 8 * bs.length := by
  induction bs with
  | nil => rfl
  | cons b bs ih => simp [ih]; omega

@[simp] theorem groupsToBits_length (gs : List Group) : (groupsToBits gs).length = 10 * gs.length := by
  induction gs with
  | nil => rfl
  | cons g gs ih => simp [ih]; omega

@[simp] theorem chunks_length (w k : Nat) (s : List Bool) : (chunks w k s).length = k := by simp [chunks]

/-- A packed sequence of n bytes has ceil(4n/5) groups (R121). -/
@[simp] theorem pack_length (bs : List Byte) : (pack bs).length = groupsFor bs.length := by
  simp only [pack, chunks_length, groupsFor]; omega

/-- k groups hold floor(5k/4) whole bytes (R124). -/
@[simp] theorem unpackRaw_length (gs : List Group) : (unpackRaw gs).length = bytesIn gs.length := by
  simp only [unpackRaw, chunks_length, bytesIn]; omega

theorem resolve_length_le (p : FlagPolicy) (bs : List Byte) (k : Nat) (f : Bool) :
    (resolve p bs k f).length ≤ bs.length := by
  unfold resolve
  split
  · exact le_rfl
  · split
    · exact le_rfl
    · split
      · simp
      · cases p <;> simp

theorem unpack_length_le (p : FlagPolicy) (gs : List Group) (f : Bool) :
    (unpack p gs f).length ≤ bytesIn gs.length := by
  simpa [unpack] using resolve_length_le p (unpackRaw gs) gs.length f

/-- A header has one group for its flag after the groups of its digest. -/
theorem hdrEncode_length (d : List Byte) (f : Bool) : (hdrEncode d f).length = groupsFor d.length + 1 := by
  simp [hdrEncode]

@[simp] theorem hash5_length (c : Config) (bs : List Byte) : (hash5 c bs).length = digestLen := by simp [hash5]

/-- An encoded stream of n bytes has 5 + ceil(4n/5) symbols (43_codec.md R175). -/
theorem encodeStream_length (c : Config) (bs : List Byte) :
    (encodeStream c bs).length = hdrLen + groupsFor bs.length := by
  simp [encodeStream, hdrEncode_length, groupsFor]

theorem groupsFor_le {m n : Nat} (h : m ≤ n) : groupsFor m ≤ groupsFor n := by unfold groupsFor; omega

theorem bytesIn_le {m n : Nat} (h : m ≤ n) : bytesIn m ≤ bytesIn n := by unfold bytesIn; omega

end Sys2Proof.Machine
end

