-- ==== Sys2Proof/Laws/State.lean ====
section
/-! SUPPORT. One lemma for each field of State after each named update: true by rfl, so that no later proof unfolds a
record update. -/

namespace Sys2Proof.Machine

variable (s : State)

/-! ## startCommand -/

@[simp] theorem State.startCommand_cmdOp (op : Op) : (s.startCommand op).cmdOp = s.cmdOp := rfl
@[simp] theorem State.startCommand_code (op : Op) : (s.startCommand op).code = .ok := rfl
@[simp] theorem State.startCommand_ilen (op : Op) : (s.startCommand op).ilen = s.ilen := rfl
@[simp] theorem State.startCommand_olen (op : Op) : (s.startCommand op).olen = s.olen := rfl
@[simp] theorem State.startCommand_flag (op : Op) : (s.startCommand op).flag = s.flag := rfl
@[simp] theorem State.startCommand_pend (op : Op) : (s.startCommand op).pend = some op := rfl
@[simp] theorem State.startCommand_ibuf (op : Op) : (s.startCommand op).ibuf = s.ibuf := rfl
@[simp] theorem State.startCommand_obuf (op : Op) : (s.startCommand op).obuf = s.obuf := rfl
@[simp] theorem State.startCommand_rom (op : Op) : (s.startCommand op).rom = s.rom := rfl
@[simp] theorem State.startCommand_events (op : Op) : (s.startCommand op).events = s.events := rfl
@[simp] theorem State.startCommand_reply (op : Op) : (s.startCommand op).reply = s.reply := rfl
@[simp] theorem State.startCommand_draws (op : Op) : (s.startCommand op).draws = s.draws := rfl

/-! ## writeCmd -/

@[simp] theorem State.writeCmd_cmdOp (v : Word) : (s.writeCmd v).cmdOp = opField v := rfl
@[simp] theorem State.writeCmd_code (v : Word) : (s.writeCmd v).code = .ok := rfl
@[simp] theorem State.writeCmd_ilen (v : Word) : (s.writeCmd v).ilen = s.ilen := rfl
@[simp] theorem State.writeCmd_olen (v : Word) : (s.writeCmd v).olen = s.olen := rfl
@[simp] theorem State.writeCmd_flag (v : Word) : (s.writeCmd v).flag = s.flag := rfl
@[simp] theorem State.writeCmd_pend (v : Word) : (s.writeCmd v).pend = some (opField v) := rfl
@[simp] theorem State.writeCmd_ibuf (v : Word) : (s.writeCmd v).ibuf = s.ibuf := rfl
@[simp] theorem State.writeCmd_obuf (v : Word) : (s.writeCmd v).obuf = s.obuf := rfl
@[simp] theorem State.writeCmd_rom (v : Word) : (s.writeCmd v).rom = s.rom := rfl
@[simp] theorem State.writeCmd_events (v : Word) : (s.writeCmd v).events = s.events := rfl
@[simp] theorem State.writeCmd_reply (v : Word) : (s.writeCmd v).reply = s.reply := rfl
@[simp] theorem State.writeCmd_draws (v : Word) : (s.writeCmd v).draws = s.draws := rfl

/-! ## finishOk -/

@[simp] theorem State.finishOk_cmdOp (out : List Word) : (s.finishOk out).cmdOp = s.cmdOp := rfl
@[simp] theorem State.finishOk_code (out : List Word) : (s.finishOk out).code = .ok := rfl
@[simp] theorem State.finishOk_ilen (out : List Word) : (s.finishOk out).ilen = s.ilen := rfl
@[simp] theorem State.finishOk_olen (out : List Word) : (s.finishOk out).olen = BitVec.ofNat 16 out.length := rfl
@[simp] theorem State.finishOk_flag (out : List Word) : (s.finishOk out).flag = s.flag := rfl
@[simp] theorem State.finishOk_pend (out : List Word) : (s.finishOk out).pend = none := rfl
@[simp] theorem State.finishOk_ibuf (out : List Word) : (s.finishOk out).ibuf = s.ibuf := rfl
@[simp] theorem State.finishOk_obuf (out : List Word) : (s.finishOk out).obuf = s.obuf.writeFrom 0 out := rfl
@[simp] theorem State.finishOk_rom (out : List Word) : (s.finishOk out).rom = s.rom := rfl
@[simp] theorem State.finishOk_events (out : List Word) : (s.finishOk out).events = s.events := rfl
@[simp] theorem State.finishOk_reply (out : List Word) : (s.finishOk out).reply = s.reply := rfl
@[simp] theorem State.finishOk_draws (out : List Word) : (s.finishOk out).draws = s.draws := rfl

/-! ## finishOkFlag -/

@[simp] theorem State.finishOkFlag_cmdOp (out : List Word) (f : Bool) : (s.finishOkFlag out f).cmdOp = s.cmdOp := rfl
@[simp] theorem State.finishOkFlag_code (out : List Word) (f : Bool) : (s.finishOkFlag out f).code = .ok := rfl
@[simp] theorem State.finishOkFlag_ilen (out : List Word) (f : Bool) : (s.finishOkFlag out f).ilen = s.ilen := rfl
@[simp] theorem State.finishOkFlag_olen (out : List Word) (f : Bool) : (s.finishOkFlag out f).olen = BitVec.ofNat 16 out.length := rfl
@[simp] theorem State.finishOkFlag_flag (out : List Word) (f : Bool) : (s.finishOkFlag out f).flag = f := rfl
@[simp] theorem State.finishOkFlag_pend (out : List Word) (f : Bool) : (s.finishOkFlag out f).pend = none := rfl
@[simp] theorem State.finishOkFlag_ibuf (out : List Word) (f : Bool) : (s.finishOkFlag out f).ibuf = s.ibuf := rfl
@[simp] theorem State.finishOkFlag_obuf (out : List Word) (f : Bool) : (s.finishOkFlag out f).obuf = s.obuf.writeFrom 0 out := rfl
@[simp] theorem State.finishOkFlag_rom (out : List Word) (f : Bool) : (s.finishOkFlag out f).rom = s.rom := rfl
@[simp] theorem State.finishOkFlag_events (out : List Word) (f : Bool) : (s.finishOkFlag out f).events = s.events := rfl
@[simp] theorem State.finishOkFlag_reply (out : List Word) (f : Bool) : (s.finishOkFlag out f).reply = s.reply := rfl
@[simp] theorem State.finishOkFlag_draws (out : List Word) (f : Bool) : (s.finishOkFlag out f).draws = s.draws := rfl

/-! ## fail -/

@[simp] theorem State.fail_cmdOp (c : StatusCode) : (s.fail c).cmdOp = s.cmdOp := rfl
@[simp] theorem State.fail_code (c : StatusCode) : (s.fail c).code = c := rfl
@[simp] theorem State.fail_ilen (c : StatusCode) : (s.fail c).ilen = s.ilen := rfl
@[simp] theorem State.fail_olen (c : StatusCode) : (s.fail c).olen = 0#16 := rfl
@[simp] theorem State.fail_flag (c : StatusCode) : (s.fail c).flag = s.flag := rfl
@[simp] theorem State.fail_pend (c : StatusCode) : (s.fail c).pend = none := rfl
@[simp] theorem State.fail_ibuf (c : StatusCode) : (s.fail c).ibuf = s.ibuf := rfl
@[simp] theorem State.fail_obuf (c : StatusCode) : (s.fail c).obuf = s.obuf := rfl
@[simp] theorem State.fail_rom (c : StatusCode) : (s.fail c).rom = s.rom := rfl
@[simp] theorem State.fail_events (c : StatusCode) : (s.fail c).events = s.events := rfl
@[simp] theorem State.fail_reply (c : StatusCode) : (s.fail c).reply = s.reply := rfl
@[simp] theorem State.fail_draws (c : StatusCode) : (s.fail c).draws = s.draws := rfl

/-! ## blockReset -/

@[simp] theorem State.blockReset_cmdOp : s.blockReset.cmdOp = 0#4 := rfl
@[simp] theorem State.blockReset_code : s.blockReset.code = .ok := rfl
@[simp] theorem State.blockReset_ilen : s.blockReset.ilen = 0#16 := rfl
@[simp] theorem State.blockReset_olen : s.blockReset.olen = 0#16 := rfl
@[simp] theorem State.blockReset_flag : s.blockReset.flag = false := rfl
@[simp] theorem State.blockReset_pend : s.blockReset.pend = none := rfl
@[simp] theorem State.blockReset_ibuf : s.blockReset.ibuf = [] := rfl
@[simp] theorem State.blockReset_obuf : s.blockReset.obuf = [] := rfl
@[simp] theorem State.blockReset_rom : s.blockReset.rom = s.rom := rfl
@[simp] theorem State.blockReset_events : s.blockReset.events = s.events := rfl
@[simp] theorem State.blockReset_reply : s.blockReset.reply = s.reply := rfl
@[simp] theorem State.blockReset_draws : s.blockReset.draws = s.draws := rfl

/-! ## latchNext -/

@[simp] theorem State.latchNext_cmdOp (w : Word) : (s.latchNext w).cmdOp = opField w := rfl
@[simp] theorem State.latchNext_code (w : Word) : (s.latchNext w).code = .ok := rfl
@[simp] theorem State.latchNext_ilen (w : Word) : (s.latchNext w).ilen = s.ilen := rfl
@[simp] theorem State.latchNext_olen (w : Word) : (s.latchNext w).olen = s.olen := rfl
@[simp] theorem State.latchNext_flag (w : Word) : (s.latchNext w).flag = s.flag := rfl
@[simp] theorem State.latchNext_pend (w : Word) : (s.latchNext w).pend = some (opField w) := rfl
@[simp] theorem State.latchNext_ibuf (w : Word) : (s.latchNext w).ibuf = s.ibuf := rfl
@[simp] theorem State.latchNext_obuf (w : Word) : (s.latchNext w).obuf = s.obuf := rfl
@[simp] theorem State.latchNext_rom (w : Word) : (s.latchNext w).rom = s.rom := rfl
@[simp] theorem State.latchNext_events (w : Word) : (s.latchNext w).events = .blockTurn :: s.events := rfl
@[simp] theorem State.latchNext_reply (w : Word) : (s.latchNext w).reply = s.reply := rfl
@[simp] theorem State.latchNext_draws (w : Word) : (s.latchNext w).draws = s.draws := rfl

/-! ## resetWith -/

@[simp] theorem State.resetWith_cmdOp (rom : Alphabet) : (State.resetWith rom).cmdOp = 0#4 := rfl
@[simp] theorem State.resetWith_code (rom : Alphabet) : (State.resetWith rom).code = .ok := rfl
@[simp] theorem State.resetWith_ilen (rom : Alphabet) : (State.resetWith rom).ilen = 0#16 := rfl
@[simp] theorem State.resetWith_olen (rom : Alphabet) : (State.resetWith rom).olen = 0#16 := rfl
@[simp] theorem State.resetWith_flag (rom : Alphabet) : (State.resetWith rom).flag = false := rfl
@[simp] theorem State.resetWith_pend (rom : Alphabet) : (State.resetWith rom).pend = none := rfl
@[simp] theorem State.resetWith_ibuf (rom : Alphabet) : (State.resetWith rom).ibuf = [] := rfl
@[simp] theorem State.resetWith_obuf (rom : Alphabet) : (State.resetWith rom).obuf = [] := rfl
@[simp] theorem State.resetWith_rom (rom : Alphabet) : (State.resetWith rom).rom = rom := rfl
@[simp] theorem State.resetWith_events (rom : Alphabet) : (State.resetWith rom).events = [] := rfl
@[simp] theorem State.resetWith_reply (rom : Alphabet) : (State.resetWith rom).reply = none := rfl
@[simp] theorem State.resetWith_draws (rom : Alphabet) : (State.resetWith rom).draws = 0 := rfl

/-! ## BUSY -/

theorem State.busy_iff : s.busy = true ↔ ∃ op, s.pend = some op := by
  simp [State.busy, Option.isSome_iff_exists]

theorem State.not_busy_iff : s.busy = false ↔ s.pend = none := by
  simp [State.busy]

@[simp] theorem State.startCommand_busy (op : Op) : (s.startCommand op).busy = true := rfl
@[simp] theorem State.writeCmd_busy (v : Word) : (s.writeCmd v).busy = true := rfl
@[simp] theorem State.finishOk_busy (out : List Word) : (s.finishOk out).busy = false := rfl
@[simp] theorem State.finishOkFlag_busy (out : List Word) (f : Bool) : (s.finishOkFlag out f).busy = false := rfl
@[simp] theorem State.fail_busy (c : StatusCode) : (s.fail c).busy = false := rfl
@[simp] theorem State.blockReset_busy : s.blockReset.busy = false := rfl

end Sys2Proof.Machine
end

