-- ==== Sys2Proof/Laws/Commands.lean ====
section
/-! SUPPORT. What a command can do, said once (60_exceptions.md R201, R204, R205): every path that goes on ends in one
`fail`, one `finishOk`, or, for HDR_DEC only, one `finishOkFlag`. -/

namespace Sys2Proof.Machine

/-- `exec` is the commands at the block's configuration. -/
theorem exec_eq_runCommand (i : Instr) (s : State) : exec i s = runCommand Config.block i s := by
  cases i <;> rfl

/-- `step` is the configured step at the block's configuration, but for the check of the configuration. -/
theorem step_eq_turn (s : State) : step s = turn (runCommand Config.block) Config.block s := by
  have : exec = runCommand Config.block := funext fun i => funext fun s => exec_eq_runCommand i s
  rw [← this]; rfl

/-! ## One lemma for each path of each command -/

section Paths

variable {c : Config} {s : State}

theorem symAt_long (hn : c.ibufDepth < s.ilen.toNat) : symAt c s = .next (s.fail .badLength) := if_pos hn

theorem symAt_run (hn : s.ilen.toNat ≤ c.ibufDepth) :
    symAt c s = s.withInput s.ilen.toNat fun ws => s.finishOk (ws.map fun w => symbol s.rom (groupItem w)) :=
  if_neg (Nat.not_lt.mpr hn)

theorem indexOf_long (hn : c.ibufDepth < s.ilen.toNat) : indexOf c s = .next (s.fail .badLength) := if_pos hn

theorem indexOf_run (hn : s.ilen.toNat ≤ c.ibufDepth) :
    indexOf c s = s.withInput s.ilen.toNat fun ws => s.finishOk (ws.map fun w => lookupWord (bsearch s.rom w)) :=
  if_neg (Nat.not_lt.mpr hn)

theorem packCmd_long (hn : c.ibufDepth < s.ilen.toNat) : packCmd c s = .next (s.fail .badLength) := if_pos hn

theorem packCmd_run (hn : s.ilen.toNat ≤ c.ibufDepth) :
    packCmd c s = s.withInput s.ilen.toNat fun ws => s.finishOk ((pack (ws.map byteItem)).map groupWord) :=
  if_neg (Nat.not_lt.mpr hn)

theorem unpackCmd_long (hn : c.ibufDepth < s.ilen.toNat) : unpackCmd c s = .next (s.fail .badLength) := if_pos hn

theorem unpackCmd_run (hn : s.ilen.toNat ≤ c.ibufDepth) :
    unpackCmd c s = s.withInput s.ilen.toNat fun ws =>
      s.finishOk ((unpack c.flagPolicy (ws.map groupItem) s.flag).map byteWord) :=
  if_neg (Nat.not_lt.mpr hn)

theorem hdrEncCmd_wrong (hn : s.ilen.toNat ≠ 5) : hdrEncCmd c s = .next (s.fail .badLength) := if_pos hn

theorem hdrEncCmd_run (hn : s.ilen.toNat = 5) :
    hdrEncCmd c s = s.withInput 5 fun ws => s.finishOk ((hdrEncode (ws.map byteItem) s.flag).map (symbol s.rom)) :=
  if_neg (not_not.mpr hn)

theorem hdrDecCmd_long (hn : c.ibufDepth < s.ilen.toNat) : hdrDecCmd c s = .next (s.fail .badLength) := if_pos hn

theorem hdrDecCmd_short (hn : s.ilen.toNat ≤ c.ibufDepth) (h5 : s.ilen.toNat < 5) :
    hdrDecCmd c s = .next (s.fail .tooShort) :=
  (if_neg (Nat.not_lt.mpr hn)).trans (if_pos h5)

theorem hdrDecCmd_run (hn : s.ilen.toNat ≤ c.ibufDepth) (h5 : 5 ≤ s.ilen.toNat) :
    hdrDecCmd c s = s.withInput 5 fun ws =>
      match hdrDecode s.rom ws with
      | .error e => s.fail e.code
      | .ok (d, f) => s.finishOkFlag (d.map byteWord) f :=
  (if_neg (Nat.not_lt.mpr hn)).trans (if_neg (Nat.not_lt.mpr h5))

theorem encodeCmd_long (hn : c.ibufDepth < s.ilen.toNat) : encodeCmd c s = .next (s.fail .badLength) := if_pos hn

theorem encodeCmd_run (hn : s.ilen.toNat ≤ c.ibufDepth) :
    encodeCmd c s = s.withInput s.ilen.toNat fun ws =>
      s.finishOk ((encodeStream c (ws.map byteItem)).map (symbol s.rom)) :=
  if_neg (Nat.not_lt.mpr hn)

theorem decodeCmd_long (hn : c.ibufDepth < s.ilen.toNat) : decodeCmd c s = .next (s.fail .badLength) := if_pos hn

theorem decodeCmd_short (hn : s.ilen.toNat ≤ c.ibufDepth) (h5 : s.ilen.toNat < 5) :
    decodeCmd c s = .next (s.fail .tooShort) :=
  (if_neg (Nat.not_lt.mpr hn)).trans (if_pos h5)

theorem decodeCmd_run (hn : s.ilen.toNat ≤ c.ibufDepth) (h5 : 5 ≤ s.ilen.toNat) :
    decodeCmd c s = s.withInput s.ilen.toNat fun ws =>
      match decodeStream c s.rom ws with
      | .error e => s.fail e.code
      | .ok bs => s.finishOk (bs.map byteWord) :=
  (if_neg (Nat.not_lt.mpr hn)).trans (if_neg (Nat.not_lt.mpr h5))

end Paths

/-- What a successful command leaves in OBUF: its output, and every later entry as before (10_state.md R28). -/
theorem State.finishOk_read (s : State) (out : List Word) (j : Nat) :
    (s.finishOk out).obuf.read j = if j < out.length then out[j]? else s.obuf.read j := by
  simp [Memory.read_writeFrom]

theorem Config.block_ibufDepth : Config.block.ibufDepth = 4096 := rfl
theorem Config.block_obufDepth : Config.block.obufDepth = 5120 := rfl
theorem Config.block_flagPolicy : Config.block.flagPolicy = .dropLast := rfl

/-! ## How a command ends -/

/-- The longest output that a command can have at configuration `c` (00_scope.md R7 item 5). -/
def outBound (c : Config) : Nat := max (bytesIn c.ibufDepth) (hdrLen + groupsFor c.ibufDepth)

/-- How a command ends. -/
inductive CommandEnd (c : Config) (i : Instr) (s t : State) : Prop where
  | failed (e : StatusCode) (ht : t = s.fail e) (he : e ≠ .ok)
  | finished (out : List Word) (ht : t = s.finishOk out) (hlen : out.length ≤ outBound c)
  | header (out : List Word) (f : Bool) (hi : i = .hdrDec) (ht : t = s.finishOkFlag out f)
      (hlen : out.length ≤ outBound c)

theorem CodecError.code_ne_ok (e : CodecError) : e.code ≠ .ok := by cases e <;> decide

theorem hdrDecode_length {rom : Alphabet} {ss : List Word} {d : List Byte} {f : Bool}
    (h : hdrDecode rom ss = .ok (d, f)) : d.length ≤ 5 := by
  simp only [hdrDecode] at h
  split at h
  · cases h
  · split at h
    · cases h
    · cases h
      simp only [unpackRaw_length, List.length_take, bytesIn, hdrDigestSyms]
      omega

theorem decodeStream_length {c : Config} {rom : Alphabet} {ss : List Word} {bs : List Byte}
    (h : decodeStream c rom ss = .ok bs) : bs.length ≤ bytesIn ss.length := by
  simp only [decodeStream] at h
  split at h
  · cases h
  · split at h
    · cases h
    · split at h
      · cases h
      · rename_i gs hgs
        split at h
        · cases h
          refine (unpack_length_le _ _ _).trans (bytesIn_le ?_)
          rw [bsearchAll_length hgs, List.length_drop]
          omega
        · cases h

theorem le_outBound_groups {c : Config} {n : Nat} (h : n ≤ c.ibufDepth) : hdrLen + groupsFor n ≤ outBound c := by
  have := groupsFor_le h
  unfold outBound
  omega

theorem le_outBound_bytes {c : Config} {n : Nat} (h : n ≤ c.ibufDepth) : bytesIn n ≤ outBound c := by
  have := bytesIn_le h
  unfold outBound
  omega

theorem le_outBound {c : Config} {n : Nat} (h : n ≤ c.ibufDepth) : n ≤ outBound c := by
  refine le_trans ?_ (le_outBound_bytes h)
  unfold bytesIn
  omega

/-- The inversion lemma of the commands: if a command answers a next state, it ended in one of three ways. -/
theorem runCommand_end {c : Config} {i : Instr} {s t : State} (h : runCommand c i s = .next t) :
    CommandEnd c i s t := by
  cases i with
  | symAt =>
    simp only [runCommand, symAt] at h
    split at h
    · cases h; exact .failed _ rfl (by decide)
    · obtain ⟨-, rfl⟩ := State.withInput_next h
      exact .finished _ rfl (by simpa using le_outBound (by omega))
  | indexOf =>
    simp only [runCommand, indexOf] at h
    split at h
    · cases h; exact .failed _ rfl (by decide)
    · obtain ⟨-, rfl⟩ := State.withInput_next h
      exact .finished _ rfl (by simpa using le_outBound (by omega))
  | pack =>
    simp only [runCommand, packCmd] at h
    split at h
    · cases h; exact .failed _ rfl (by decide)
    · obtain ⟨-, rfl⟩ := State.withInput_next h
      refine .finished _ rfl (le_trans ?_ (le_outBound_groups (n := s.ilen.toNat) (by omega)))
      simp
  | unpack =>
    simp only [runCommand, unpackCmd] at h
    split at h
    · cases h; exact .failed _ rfl (by decide)
    · obtain ⟨-, rfl⟩ := State.withInput_next h
      refine .finished _ rfl (le_trans ?_ (le_outBound_bytes (n := s.ilen.toNat) (by omega)))
      simpa using unpack_length_le c.flagPolicy ((s.inputs s.ilen.toNat).map groupItem) s.flag
  | hdrEnc =>
    simp only [runCommand, hdrEncCmd] at h
    split at h
    · cases h; exact .failed _ rfl (by decide)
    · obtain ⟨-, rfl⟩ := State.withInput_next h
      refine .finished _ rfl ?_
      simp only [List.length_map, hdrEncode_length, State.inputs_length, groupsFor, outBound, digestLen, hdrLen]
      omega
  | hdrDec =>
    simp only [runCommand, hdrDecCmd] at h
    split at h
    · cases h; exact .failed _ rfl (by decide)
    · split at h
      · cases h; exact .failed _ rfl (by decide)
      · obtain ⟨-, rfl⟩ := State.withInput_next h
        split
        · exact .failed _ rfl (CodecError.code_ne_ok _)
        · rename_i d f hd
          refine .header _ f rfl rfl ?_
          have := hdrDecode_length hd
          simp only [List.length_map, outBound, hdrLen]
          omega
  | encode =>
    simp only [runCommand, encodeCmd] at h
    split at h
    · cases h; exact .failed _ rfl (by decide)
    · obtain ⟨-, rfl⟩ := State.withInput_next h
      refine .finished _ rfl (le_trans ?_ (le_outBound_groups (n := s.ilen.toNat) (by omega)))
      simp [encodeStream_length]
  | decode =>
    simp only [runCommand, decodeCmd] at h
    split at h
    · cases h; exact .failed _ rfl (by decide)
    · split at h
      · cases h; exact .failed _ rfl (by decide)
      · obtain ⟨-, rfl⟩ := State.withInput_next h
        split
        · exact .failed _ rfl (CodecError.code_ne_ok _)
        · rename_i bs hbs
          refine .finished _ rfl (le_trans ?_ (le_outBound_bytes (n := s.ilen.toNat) (by omega)))
          simpa using decodeStream_length hbs

/-- OLEN.N is the exact length of an output that fits (10_state.md R24). -/
theorem olen_toNat {n : Nat} (h : n ≤ 32768) : (BitVec.ofNat 16 n).toNat = n := by
  rw [BitVec.toNat_ofNat]
  omega

/-- A well-formed configuration's OBUF holds every output (00_scope.md R7 item 5). -/
theorem outBound_le {c : Config} (h : c.wf = true) : outBound c ≤ c.obufDepth ∧ c.obufDepth ≤ 32768 := by
  simp only [Config.wf, Bool.and_eq_true] at h
  simpa [Config.obufOk, outBound] using h.2

/-- The block's configuration is well formed (R7). -/
theorem Config.block_wf : Config.block.wf = true := by
  have hsize : Config.block.sizeOk = true := by
    simp [Config.sizeOk, Config.block, Config.openAlphabet.1.size]
  have hentries : Config.block.entriesOk = true := Config.openAlphabet.2
  have hasc : Config.block.ascendingOk = true := Config.openAlphabet.1.sorted
  have hsym : Config.block.symWOk = true := by decide
  have hib : Config.block.ibufOk = true := by decide
  have hob : Config.block.obufOk = true := by decide
  simp only [Config.wf, hsize, hentries, hasc, hsym, hib, hob, Bool.and_self]

end Sys2Proof.Machine
end

