-- ==== Sys2Proof/Laws/Step.lean ====
section
/-! SUPPORT. What a step can do, said once: one lemma for each kind of event, and the inversion lemma of a turn. -/

namespace Sys2Proof.Machine

variable {run : Instr → State → Result} {c : Config} {s t : State} {rest : List Event}

theorem turn_idle (h : s.events = []) : turn run c s = blockStep run s := by simp only [turn, h]

theorem turn_block (h : s.events = .blockTurn :: rest) :
    turn run c s = blockStep run { s with events := rest } := by simp only [turn, h]

theorem turn_write {a : HostAddr} {v : Word} (h : s.events = .write a v :: rest) :
    turn run c s = .next (hostWrite c a v { s with events := rest }) := by simp only [turn, h]

theorem turn_read {a : HostAddr} (h : s.events = .read a :: rest) :
    turn run c s = hostRead c a { s with events := rest } := by simp only [turn, h]

theorem turn_reset (h : s.events = .reset :: rest) :
    turn run c s = .next (State.blockReset { s with events := rest }) := by simp only [turn, h]

/-- What a block step can do. -/
theorem blockStep_cases (h : blockStep run s = .next t) :
    (s.pend = none ∧ t = s) ∨ (∃ op i, s.pend = some op ∧ decodeOp op = .ok i ∧ run i s = .next t) ∨
      (∃ op e, s.pend = some op ∧ decodeOp op = .error e ∧ t = s.fail .badCommand) := by
  simp only [blockStep] at h
  split at h
  · rename_i hp; cases h; exact .inl ⟨hp, rfl⟩
  · rename_i op hp
    split at h
    · rename_i i hi; exact .inr (.inl ⟨op, i, hp, hi, h⟩)
    · rename_i o ho; cases h; exact .inr (.inr ⟨op, _, hp, ho, rfl⟩)

/-- What a host read can do: at most the model's own fields `reply` and `draws` change (20_memory.md R53). -/
theorem hostRead_cases {a : HostAddr} (h : hostRead c a s = .next t) :
    ∃ r n, t = { s with reply := r, draws := n } := by
  simp only [hostRead] at h
  split at h
  · cases h; exact ⟨_, _, rfl⟩
  · cases h; exact ⟨_, _, rfl⟩
  · cases h

/-- What a host write can do (20_memory.md R52). -/
theorem hostWrite_cases (c : Config) (a : HostAddr) (v : Word) (s : State) :
    hostWrite c a v s = s ∨
      (s.pend = none ∧
        (hostWrite c a v s = s.writeCmd v ∨ hostWrite c a v s = { s with ilen := v.extractLsb' 0 16 } ∨
          hostWrite c a v s = { s with flag := v.getLsbD 0 } ∨
          ∃ i, i < c.ibufDepth ∧ a.toNat = 0x4000 + i ∧ hostWrite c a v s = { s with ibuf := s.ibuf.write i v })) := by
  by_cases hb : s.busy = true
  · left; simp [hostWrite, hb]
  have hp : s.pend = none := (s.not_busy_iff).mp (by simpa using hb)
  unfold hostWrite
  rw [if_neg hb]
  split
  · exact .inr ⟨hp, .inl rfl⟩
  · split
    · exact .inr ⟨hp, .inr (.inl rfl)⟩
    · split
      · exact .inr ⟨hp, .inr (.inr (.inl rfl))⟩
      · split
        · rename_i hi
          simp only [inIbuf, Bool.and_eq_true, decide_eq_true_eq] at hi
          exact .inr ⟨hp, .inr (.inr (.inr ⟨a.toNat - 0x4000, by omega, by omega, rfl⟩))⟩
        · exact .inl rfl

/-- The inversion lemma of a turn: which event happened, and with which effect. -/
theorem turn_cases (h : turn run c s = .next t) :
    (s.events = [] ∧ blockStep run s = .next t) ∨
      (∃ rest, s.events = .blockTurn :: rest ∧ blockStep run { s with events := rest } = .next t) ∨
      (∃ a v rest, s.events = .write a v :: rest ∧ t = hostWrite c a v { s with events := rest }) ∨
      (∃ a rest, s.events = .read a :: rest ∧ hostRead c a { s with events := rest } = .next t) ∨
      (∃ rest, s.events = .reset :: rest ∧ t = State.blockReset { s with events := rest }) := by
  cases he : s.events with
  | nil => rw [turn_idle he] at h; exact .inl ⟨rfl, h⟩
  | cons e rest =>
    cases e with
    | blockTurn => rw [turn_block he] at h; exact .inr (.inl ⟨rest, rfl, h⟩)
    | write a v => rw [turn_write he] at h; cases h; exact .inr (.inr (.inl ⟨a, v, rest, rfl, rfl⟩))
    | read a => rw [turn_read he] at h; exact .inr (.inr (.inr (.inl ⟨a, rest, rfl, h⟩)))
    | reset => rw [turn_reset he] at h; cases h; exact .inr (.inr (.inr (.inr ⟨rest, rfl, rfl⟩)))

end Sys2Proof.Machine
end

