-- ==== Sys2Proof/Laws/HostProgram.lean ====
section
/-! SUPPORT. What the host agent does in one step (30_encoding.md R82), the loop of `loopback` (R83), and the ends of runs
(60_exceptions.md R214). -/

namespace Sys2Proof.Machine

variable {prog : List HostStmt} {y : System}

/-! ## One step of the host agent: which statement it runs -/

theorem System.step_halted (h : y.agent.halted = true) : System.step prog .host y = .next y := by
  simp only [System.step, h, if_true]

theorem System.step_todo {t : HostStmt} {rest : List HostStmt} (h : y.agent.halted = false)
    (ht : y.agent.todo = t :: rest) :
    System.step prog .host y = y.perform prog { y.agent with todo := rest } t := by
  simp only [System.step, h, ht, Bool.false_eq_true, if_false]

theorem System.step_stmt {t : HostStmt} (h : y.agent.halted = false) (ht : y.agent.todo = [])
    (hp : prog[y.agent.pc]? = some t) :
    System.step prog .host y = y.perform prog { y.agent with pc := y.agent.pc + 1 } t := by
  simp only [System.step, h, ht, hp, Bool.false_eq_true, if_false]

/-! ## Accesses of the host, one lemma each -/

/-- A host read of a word that the spec fixes: the host has it, and the block is as before but for the model's own fields
(20_memory.md R53). -/
theorem System.access_read {a : HostAddr} {w : Word} {after : Option Word → HostAgent}
    (h : hostReadResult Config.block a { y.block with events := [] } = .word w) :
    y.access (.read a) after =
      .next { agent := after (some w), block := { y.block with events := [], reply := some w } } := by
  have hs : Machine.step { y.block with events := [.read a] } =
      .next { y.block with events := [], reply := some w } := by
    refine Eq.trans (turn_read rfl) ?_
    simp only [hostRead, h]
  simp only [System.access, hs]

/-- A host write (20_memory.md R52). -/
theorem System.access_write (a : HostAddr) (v : Word) (after : Option Word → HostAgent) :
    y.access (.write a v) after =
      .next { agent := after (hostWrite Config.block a v { y.block with events := [] }).reply
              block := hostWrite Config.block a v { y.block with events := [] } } := by
  have hs : Machine.step { y.block with events := [.write a v] } =
      .next (hostWrite Config.block a v { y.block with events := [] }) := turn_write rfl
  simp only [System.access, hs]

/-! ## Reset (70_reset_and_hazards.md R230 to R232) -/

/-- A reset resets the block and leaves the host agent (log entry 23). -/
theorem System.step_reset :
    System.step prog .reset y = .next { y with block := State.blockReset { y.block with events := [] } } := by
  have hs : Machine.step { y.block with events := [.reset] } =
      .next (State.blockReset { y.block with events := [] }) := turn_reset rfl
  simp only [System.step, System.access, hs]

/-! ## `loopback` (R83) -/

/-- The loop is unrolled for the value that the host has read. -/
theorem System.step_copyAll {x : HostVar} (h : y.agent.halted = false) (ht : y.agent.todo = [])
    (hp : prog[y.agent.pc]? = some (.copyAll x)) :
    System.step prog .host y =
      .next { y with agent :=
        { y.agent with pc := y.agent.pc + 1, todo := copyStmts (y.agent.value x).toNat } } := by
  rw [System.step_stmt h ht hp]
  simp [System.perform, HostAgent.value, ht]

theorem copyStmts_succ (n : Nat) :
    copyStmts (n + 1) = copyStmts n ++ [.rd .loopWord (.obuf n), .wr (.ibuf n) (.var .loopWord)] := by
  simp [copyStmts, List.range_succ]

theorem obuf_addr {i : Nat} (hi : i < 0x8000) : (HostTarget.obuf i).addr.toNat = 0x8000 + i := by
  simp only [HostTarget.addr, BitVec.toNat_ofNat]
  omega

theorem ibuf_addr {i : Nat} (hi : i < 0x4000) : (HostTarget.ibuf i).addr.toNat = 0x4000 + i := by
  simp only [HostTarget.addr, BitVec.toNat_ofNat]
  omega

/-- An idle host read of a written OBUF entry (20_memory.md R53). -/
theorem hostReadResult_obuf {s : State} {i : Nat} {w : Word} (hb : s.busy = false) (hi : i < Config.block.obufDepth)
    (hw : s.obuf.read i = some w) : hostReadResult Config.block (HostTarget.obuf i).addr s = .word w := by
  rw [Config.block_obufDepth] at hi
  have ha := obuf_addr (i := i) (by omega)
  have hne : ∀ k, k < 5 → (HostTarget.obuf i).addr ≠ BitVec.ofNat 16 k := by
    intro k hk he
    have := congrArg BitVec.toNat he
    rw [ha, BitVec.toNat_ofNat] at this
    omega
  have hib : inIbuf Config.block (HostTarget.obuf i).addr = false := by
    simp only [inIbuf, ha, Config.block_ibufDepth, Bool.and_eq_false_iff, decide_eq_false_iff_not]
    omega
  have hob : inObuf Config.block (HostTarget.obuf i).addr = true := by
    simp only [inObuf, ha, Config.block_obufDepth, Bool.and_eq_true, decide_eq_true_eq]
    omega
  rw [hostReadResult, if_neg (hne 1 (by omega)), hb, Bool.false_and, if_neg Bool.false_ne_true,
    if_neg (hne 2 (by omega)), if_neg (hne 3 (by omega)), if_neg (hne 4 (by omega)), hib, if_neg Bool.false_ne_true,
    if_pos hob, ha, Nat.add_sub_cancel_left, hw]

/-- An idle host write to an IBUF entry (20_memory.md R52). -/
theorem hostWrite_ibuf {s : State} {i : Nat} {w : Word} (hb : s.busy = false) (hi : i < Config.block.ibufDepth) :
    hostWrite Config.block (HostTarget.ibuf i).addr w s = { s with ibuf := s.ibuf.write i w } := by
  rw [Config.block_ibufDepth] at hi
  have ha := ibuf_addr (i := i) (by omega)
  have hne : ∀ k, k < 5 → (HostTarget.ibuf i).addr ≠ BitVec.ofNat 16 k := by
    intro k hk he
    have := congrArg BitVec.toNat he
    rw [ha, BitVec.toNat_ofNat] at this
    omega
  have hib : inIbuf Config.block (HostTarget.ibuf i).addr = true := by
    simp only [inIbuf, ha, Config.block_ibufDepth, Bool.and_eq_true, decide_eq_true_eq]
    omega
  rw [hostWrite, hb, if_neg Bool.false_ne_true, if_neg (hne 0 (by omega)), if_neg (hne 2 (by omega)),
    if_neg (hne 4 (by omega)), if_pos hib, ha, Nat.add_sub_cancel_left]

/-- One turn of the loop: two host steps move OBUF[i] to IBUF[i], and the rest of the loop is left. -/
theorem System.copy_entry {i : Nat} {w : Word} {rest : List HostStmt} (h : y.agent.halted = false)
    (ht : y.agent.todo = .rd .loopWord (.obuf i) :: .wr (.ibuf i) (.var .loopWord) :: rest)
    (hb : y.block.busy = false) (ho : i < Config.block.obufDepth) (hi : i < Config.block.ibufDepth)
    (hw : y.block.obuf.read i = some w) :
    ∃ y1, System.step prog .host y = .next y1 ∧
      System.step prog .host y1 = .next
        { agent := { y.agent with todo := rest, vars := (.loopWord, w) :: y.agent.vars }
          block := { y.block with events := [], reply := some w, ibuf := y.block.ibuf.write i w } } := by
  let h1 : HostAgent :=
    { y.agent with todo := .wr (.ibuf i) (.var .loopWord) :: rest, vars := (.loopWord, w) :: y.agent.vars }
  let y1 : System := { agent := h1, block := { y.block with events := [], reply := some w } }
  have read_step : System.step prog .host y = .next y1 :=
    (System.step_todo h ht).trans (System.access_read (hostReadResult_obuf hb ho hw))
  have read_word : ({ h1 with todo := rest } : HostAgent).eval (.var .loopWord) = w := by
    simp [HostAgent.eval, HostAgent.value, h1]
  have write_step : System.step prog .host y1 =
      y1.access (.write (HostTarget.ibuf i).addr w) fun _ => { h1 with todo := rest } :=
    (System.step_todo (y := y1) h rfl).trans
      (congrArg (fun v => y1.access (.write (HostTarget.ibuf i).addr v) fun _ => { h1 with todo := rest }) read_word)
  refine ⟨y1, read_step, write_step.trans ((System.access_write _ _ _).trans ?_)⟩
  rw [hostWrite_ibuf (s := { y1.block with events := [] }) hb hi]

/-! ## The ends of runs (R214) -/

/-- After the end of a host program's run nothing changes until a reset: the host makes no more accesses and no block step
is enabled. -/
theorem System.runEnded_stays {m : Mover} (hm : m ≠ .reset) (h : y.runEnded = true) (he : y.block.events = []) :
    System.step prog m y = .next y := by
  simp only [System.runEnded, Bool.and_eq_true, Bool.not_eq_true'] at h
  cases m with
  | reset => exact absurd rfl hm
  | host => exact System.step_halted h.1
  | block =>
    have hp := y.block.not_busy_iff.mp h.2
    have hs : Machine.step { y.block with events := [.blockTurn] } = .next { y.block with events := [] } := by
      refine Eq.trans (turn_block rfl) ?_
      simp only [blockStep, hp]
    simp only [System.step, System.access, hs]
    rw [← he]

/-- A state with BUSY = 1 is never the end of a host program's run. -/
theorem System.busy_not_runEnded (h : y.block.busy = true) : y.runEnded = false := by simp [System.runEnded, h]

/-- A command answers a next state with nothing pending (60_exceptions.md R201). -/
theorem exec_pend {i : Instr} {s t : State} (h : exec i s = .next t) : t.pend = none := by
  cases runCommand_end ((exec_eq_runCommand i s) ▸ h) with
  | failed e ht => rw [ht]; rfl
  | finished out ht => rw [ht]; rfl
  | header out f hi ht => rw [ht]; rfl

/-- A block step that goes on leaves nothing pending. -/
theorem blockStep_pend {s t : State} (h : blockStep exec s = .next t) : t.pend = none := by
  obtain ⟨hp, rfl⟩ | ⟨op, i, -, -, hx⟩ | ⟨op, e, -, -, rfl⟩ := blockStep_cases h
  · exact hp
  · exact exec_pend hx
  · rfl

/-- A command's run goes from a state with BUSY = 1 to one with BUSY = 0. -/
theorem CommandRun.busy {s t : State} (h : CommandRun s t) : s.busy = true ∧ t.busy = false := by
  induction h with
  | access busy _ _ _ ih => exact ⟨busy, ih.2⟩
  | finish busy next ends =>
    refine ⟨busy, (State.not_busy_iff _).mpr ?_⟩
    obtain he | ⟨rest, he⟩ := next
    · exact blockStep_pend ((turn_idle he).symm.trans ends)
    · exact blockStep_pend ((turn_block he).symm.trans ends)

end Sys2Proof.Machine
end

