-- ==== Sys2Proof/Laws/PerInstr.lean ====
section
/-! SUPPORT. Statements made command by command about the command as a word: the family CommandWord. -/

namespace Sys2Proof.Laws.CommandWord

/-- The word that `cmd <MNEMONIC>` writes (30_encoding.md R82) has its ignored bits 31:4 zero, its OP field is the
command's, and the command is well formed. -/
def Statement (i : Instr) : Prop :=
  i.wf = true ∧ (encode i).toNat < 16 ∧ opField (encode i) = opOf i ∧ opNamesCommand (opOf i) = true

theorem symAt : Statement .symAt := by unfold Statement; decide
theorem indexOf : Statement .indexOf := by unfold Statement; decide
theorem pack : Statement .pack := by unfold Statement; decide
theorem unpack : Statement .unpack := by unfold Statement; decide
theorem hdrEnc : Statement .hdrEnc := by unfold Statement; decide
theorem hdrDec : Statement .hdrDec := by unfold Statement; decide
theorem encode : Statement .encode := by unfold Statement; decide
theorem decode : Statement .decode := by unfold Statement; decide

end Sys2Proof.Laws.CommandWord
end

