-- ==== Sys2Proof/Tests/Slice0.lean ====
section
/-! SUPPORT. The model's own tests: well-formedness, decoding, the commands on vectors of 95_test_vectors.md, the host
port, and a witness for the hypotheses of each statement. Expected results are the spec's, named by their ids. -/

namespace Sys2Proof.Tests

open Sys2Proof.Machine

/-! ## Helpers -/

/-- Cells of a buffer from index `i` up. -/
def cells (i : Nat) : List Word → Memory
  | [] => []
  | w :: ws => (i, w) :: cells (i + 1) ws

/-- A block with the test alphabet after reset, with `ws` in IBUF, ILEN = n and FLAG = f. -/
def loaded (ws : List Word) (n : Nat) (f : Bool) : State :=
  { State.resetWith Alphabet.test with ibuf := cells 0 ws, ilen := BitVec.ofNat 16 n, flag := f }

/-- Five digest bytes as a 32-byte hash. -/
def digest (bs : List Byte) : Vector Byte hashLen := Vector.ofFn fun i => bs.getD i.val 0#8

/-- The SHA-256 digests that 95_test_vectors.md lists, five bytes each: V-CD-1 and V-CD-3. -/
def testHash (bs : List Byte) : Vector Byte hashLen :=
  if bs = [] then digest [0xE3#8, 0xB0#8, 0xC4#8, 0x42#8, 0x98#8]
  else if bs = [0xDE#8, 0xAD#8, 0xBE#8, 0xEF#8] then digest [0x5F#8, 0x78#8, 0xC3#8, 0x32#8, 0x74#8]
  else digest []

/-- The test configuration (D31), its hash cut down to the vectors used here. -/
def testConfig : Config := { alphabet := Alphabet.test.entries, hash256 := testHash }

/-- The code, OLEN, FLAG and output words of a result that goes on. -/
def outcome (r : Result) : Option (StatusCode × Nat × Bool × List Word) :=
  match r with
  | .next t => some (t.code, t.olen.toNat, t.flag, t.obuf.map Prod.snd)
  | .fault _ => none
  | .refused _ => none

/-- A command at the test configuration. -/
def ran (i : Instr) (ws : List Word) (f : Bool) : Option (StatusCode × Nat × Bool × List Word) :=
  outcome (runCommand testConfig i (loaded ws ws.length f))

/-- A step went on. -/
def wentOn (r : Result) : Bool :=
  match r with
  | .next _ => true
  | .fault _ => false
  | .refused _ => false

/-! ## Well-formedness: each check refuses an ill-formed term -/

theorem test_instr_wf : ([.symAt, .indexOf, .pack, .unpack, .hdrEnc, .hdrDec, .encode, .decode] : List Instr).all
    Instr.wf = true := by decide

theorem test_op_zero_reserved : opNamesCommand 0x0#4 = false := by decide
theorem test_op_nine_reserved : opNamesCommand 0x9#4 = false := by decide
theorem test_op_bounds : opNamesCommand 0x1#4 = true ∧ opNamesCommand 0x8#4 = true := by decide

theorem test_symW_zero_refused : ({ testConfig with symW := 0 } : Config).symWOk = false := by decide
theorem test_symW_wide_refused : ({ testConfig with symW := 33 } : Config).symWOk = false := by decide
theorem test_size_refused : ({ testConfig with alphabet := countUp 0x4E00 1023 } : Config).sizeOk = false := by
  simp [Config.sizeOk, countUp_length]
theorem test_entry_refused : ({ testConfig with alphabet := [0x00200000#32] } : Config).entriesOk = false := by decide
theorem test_equal_entries_refused :
    ({ testConfig with alphabet := [0x4E00#32, 0x4E00#32] } : Config).ascendingOk = false := by decide
theorem test_ibuf_four_refused : ({ testConfig with ibufDepth := 4 } : Config).ibufOk = false := by decide
theorem test_ibuf_big_refused : ({ testConfig with ibufDepth := 16385 } : Config).ibufOk = false := by decide
theorem test_obuf_small_refused : ({ testConfig with obufDepth := 5119 } : Config).obufOk = false := by decide
theorem test_obuf_big_refused : ({ testConfig with obufDepth := 32769 } : Config).obufOk = false := by decide
theorem test_config_wf : testConfig.wf = true := by
  have h1 : testConfig.sizeOk = true := by simp [Config.sizeOk, testConfig, Alphabet.test.size]
  have h2 : testConfig.entriesOk = true := countUp_fits _ _ _ (by decide)
  have h3 : testConfig.ascendingOk = true := Alphabet.test.sorted
  have h4 : testConfig.symWOk = true := by decide
  have h5 : testConfig.ibufOk = true := by decide
  have h6 : testConfig.obufOk = true := by decide
  simp only [Config.wf, h1, h2, h3, h4, h5, h6, Bool.and_self]

/-! ## Decoding: words written out from 30_encoding.md R72 -/

theorem test_decode_symAt : decode 0x00000001#32 = .ok .symAt := by decide
theorem test_decode_indexOf : decode 0x00000002#32 = .ok .indexOf := by decide
theorem test_decode_pack : decode 0xFFFFFFF3#32 = .ok .pack := by decide
theorem test_decode_unpack : decode 0x00000004#32 = .ok .unpack := by decide
theorem test_decode_hdrEnc : decode 0xABCDEF05#32 = .ok .hdrEnc := by decide
theorem test_decode_hdrDec : decode 0x00000006#32 = .ok .hdrDec := by decide
theorem test_decode_encode : decode 0x00000007#32 = .ok .encode := by decide
theorem test_decode_decode : decode 0x00000008#32 = .ok .decode := by decide
theorem test_decode_zero : decode 0x00000000#32 = .error (.reservedOp 0x0#4) := by decide
theorem test_decode_ten : decode 0x000000FA#32 = .error (.reservedOp 0xA#4) := by decide
theorem test_table_word : decodeTableWord 32 3 = some .pack ∧ decodeTableWord 32 9 = none := by decide
theorem test_table_rows_apart : opcodeTable.Pairwise fun a b => a.value &&& b.mask ≠ b.value := by decide

/-! ## Each command runs as the first one after reset -/

theorem test_first_step_runs : ([1, 2, 3, 4, 5, 6, 7, 8] : List Nat).all
    (fun w => wentOn (step (State.reset.withFetchWord 32 w))) = true := by decide

/-! ## The commands -/

set_option maxRecDepth 20000 in
/-- V-AL-1. -/
theorem test_symAt : ran .symAt [0x000#32, 0x3FF#32, 0x401#32] false =
    some (.ok, 3, false, [0x4E00#32, 0x51FF#32, 0x4E01#32]) := by decide

set_option maxRecDepth 20000 in
/-- V-AL-4. -/
theorem test_indexOf : ran .indexOf [0x4E00#32, 0x51FF#32, 0x4DFF#32, 0x00014E00#32] false =
    some (.ok, 4, false, [0x000#32, 0x3FF#32, 0x400#32, 0x400#32]) := by decide

/-- V-BP-7. -/
theorem test_pack : ran .pack [0xDE#32, 0xAD#32, 0xBE#32, 0xEF#32] false =
    some (.ok, 4, false, [0x37A#32, 0x2DB#32, 0x3BB#32, 0x300#32]) := by decide

/-- V-BP-12: bits 31:8 ignored. -/
theorem test_pack_high_bits : ran .pack [0x000001FF#32] true = some (.ok, 1, true, [0x3FC#32]) := by decide

/-- V-BP-21. -/
theorem test_unpack_aligned : ran .unpack [0x37A#32, 0x2DB#32, 0x3BB#32, 0x300#32] true =
    some (.ok, 4, true, [0xDE#32, 0xAD#32, 0xBE#32, 0xEF#32]) := by decide

/-- V-BP-18, both policies. -/
theorem test_unpack_unaligned :
    ran .unpack [0x048#32, 0x0D0#32] true = some (.ok, 1, true, [0x12#32]) ∧
    outcome (runCommand { testConfig with flagPolicy := .dropIfAligned } .unpack
      (loaded [0x048#32, 0x0D0#32] 2 true)) = some (.ok, 2, true, [0x12#32, 0x0D#32]) := by decide

set_option maxRecDepth 20000 in
/-- V-HD-1. -/
theorem test_hdrEnc : ran .hdrEnc [0x01#32, 0x02#32, 0x03#32, 0x04#32, 0x05#32] true =
    some (.ok, 5, true, [0x4E04#32, 0x4E20#32, 0x4EC1#32, 0x4E05#32, 0x4E01#32]) := by decide

/-- V-HD-4. -/
theorem test_hdrEnc_length : ran .hdrEnc [0x01#32, 0x02#32, 0x03#32, 0x04#32] true = some (.badLength, 0, true, []) := by
  decide

set_option maxRecDepth 20000 in
/-- V-HD-6: FLAG.F is written. -/
theorem test_hdrDec : ran .hdrDec [0x4E04#32, 0x4E20#32, 0x4EC1#32, 0x4E05#32, 0x4E01#32] false =
    some (.ok, 5, true, [0x01#32, 0x02#32, 0x03#32, 0x04#32, 0x05#32]) := by decide

set_option maxRecDepth 20000 in
/-- V-HD-9: the invalid symbol wins over the flag index. -/
theorem test_hdrDec_order : ran .hdrDec [0x0041#32, 0x4E20#32, 0x4EC1#32, 0x4E05#32, 0x4E05#32] true =
    some (.invalidSymbol, 0, true, []) := by decide

set_option maxRecDepth 20000 in
/-- V-CD-3. -/
theorem test_encode : ran .encode [0xDE#32, 0xAD#32, 0xBE#32, 0xEF#32] false = some (.ok, 9, false,
    [0x4F7D#32, 0x518C#32, 0x4ECC#32, 0x5074#32, 0x4E01#32, 0x517A#32, 0x50DB#32, 0x51BB#32, 0x5100#32]) := by decide

set_option maxRecDepth 20000 in
/-- V-CD-21: the dropped byte's bits are not checked. -/
theorem test_decode : ran .decode
    [0x4F7D#32, 0x518C#32, 0x4ECC#32, 0x5074#32, 0x4E01#32, 0x517A#32, 0x50DB#32, 0x51BB#32, 0x51FF#32] false =
    some (.ok, 4, false, [0xDE#32, 0xAD#32, 0xBE#32, 0xEF#32]) := by decide

set_option maxRecDepth 20000 in
/-- V-CD-20: flag 1 made 0. -/
theorem test_decode_flag_flip : ran .decode
    [0x4F7D#32, 0x518C#32, 0x4ECC#32, 0x5074#32, 0x4E00#32, 0x517A#32, 0x50DB#32, 0x51BB#32, 0x5100#32] false =
    some (.checksumMismatch, 0, false, []) := by decide

/-! ## The reference machines: the traces of V-BP-7 and V-BP-20 -/

theorem test_pack_machine : packSm [0xDE#8, 0xAD#8, 0xBE#8, 0xEF#8] = [0x37A#10, 0x2DB#10, 0x3BB#10, 0x300#10] := by
  decide
theorem test_pack_machine_registers : (packStep { acc := 0x00DE#16, nb := 8 } 0xAD#8).1 =
    { acc := 0x002D#16, nb := 6 } := by decide
theorem test_unpack_machine : unpackSm [0x37A#10, 0x2DB#10, 0x3BB#10, 0x300#10] =
    [0xDE#8, 0xAD#8, 0xBE#8, 0xEF#8, 0x00#8] := by decide
theorem test_unpack_machine_registers : (unpackStep { acc := 0x0002#16, nb := 2 } 0x2DB#10).1 =
    { acc := 0x000B#16, nb := 4 } := by decide

/-! ## The host port -/

/-- V-EX-1: a reserved OP. -/
theorem test_bad_command : outcome (step (State.reset.withFetchWord 32 0)) = some (.badCommand, 0, false, []) := by
  decide

/-- V-EX-4: STATUS between the CMD write and the block step. -/
theorem test_status_busy : (State.reset.writeCmd 0x3#32).statusWord = 0x80000000#32 := by decide

/-- V-EX-7 and V-EX-8: what ILEN and FLAG keep. -/
theorem test_register_writes : (hostWrite testConfig 0x0002#16 0xFFFF0003#32 State.reset).ilen = 0x0003#16 ∧
    (hostWrite testConfig 0x0004#16 0xFFFFFFFE#32 State.reset).flag = false := by decide

/-- V-EX-6: reserved addresses read zero. -/
theorem test_reserved_reads : hostReadResult testConfig 0x0005#16 State.reset = .word 0x00000000#32 ∧
    hostReadResult testConfig 0x3FFF#16 State.reset = .word 0x00000000#32 ∧
    hostReadResult testConfig 0x5000#16 State.reset = .word 0x00000000#32 := by decide

/-- V-EX-10: OBUF[0] after reset. -/
theorem test_unwritten_output : hostReadResult testConfig 0x8000#16 State.reset = .unwritten := by decide

/-- V-EX-11: IBUF[1] is in the read set of PACK and unwritten. -/
theorem test_unwritten_input : execPack (loaded [0x01#32] 2 false) = .fault .unwrittenInput := rfl

/-- R83: the expansions of `run` and `loopback`. -/
theorem test_run_expansion : HostLine.expand 7 (.run .encode) =
    [.wr .cmd (.word 0x00000007#32), .label (.pollLoop 7), .rd .pollWord .status,
      .bnz .pollWord 0x80000000#32 (.pollLoop 7)] := by decide
theorem test_loopback_expansion : HostLine.expand 0 .loopback =
    [.rd .loopCount .olen, .copyAll .loopCount, .wr .ilen (.var .loopCount)] := by decide

/-- R83: the loop is unrolled for the word that the host has read, here 2, whatever the program's text. -/
theorem test_loopback_unrolls :
    let y : System := { agent := { HostAgent.start with pc := 1, vars := [(.loopCount, 2#32)] }
                        block := State.resetWith Alphabet.test }
    System.step (HostLine.expand 0 .loopback) .host y = .next { y with agent := { y.agent with
      pc := 2
      todo := [.rd .loopWord (.obuf 0), .wr (.ibuf 0) (.var .loopWord),
        .rd .loopWord (.obuf 1), .wr (.ibuf 1) (.var .loopWord)] } } := rfl

/-- R231, R241: a reset during a poll abandons the command and leaves the host where it is. -/
theorem test_reset_during_run :
    let y : System := { agent := { HostAgent.start with pc := 2 }
                        block := (State.resetWith Alphabet.test).writeCmd 0x3#32 }
    System.step (HostLine.expand 0 (.run .pack)) .reset y = .next { y with block := State.resetWith Alphabet.test } := rfl

/-- R214: the observation has FLAG.F after HDR_DEC only. -/
theorem test_observe_flag : ((loaded [] 0 true).observe (opOf .hdrDec)).flag = some true ∧
    ((loaded [] 0 true).observe (opOf .unpack)).flag = none := by decide

/-- R214: a host that has halted while BUSY = 1 has not ended its run. -/
theorem test_halt_while_busy :
    let h : HostAgent := { HostAgent.start with halted := true }
    ({ agent := h, block := (loaded [] 0 true).writeCmd 0x3#32 } : System).runEnded = false ∧
    ({ agent := h, block := loaded [] 0 true } : System).runEnded = true := by decide

/-! ## Witnesses: for each statement with hypotheses, a concrete case that meets all of them

`at_` states are blocks with the test alphabet; the events, buffers and registers that a statement asks for are set in
them. A statement with several clauses has a witness for each, at the ends of its range. -/

theorem cells_read (i : Nat) (ws : List Word) (j : Nat) (h : j < ws.length) : (cells i ws).read (i + j) = some ws[j] := by
  induction ws generalizing i j with
  | nil => simp at h
  | cons w ws ih =>
    cases j with
    | zero => simp [cells, Memory.read]
    | succ j =>
      have := ih (i + 1) j (by simpa using h)
      rw [show i + 1 + j = i + (j + 1) by omega] at this
      simpa [cells, Memory.read] using this

theorem cells_holds (ws : List Word) : (cells 0 ws).holds ws := fun j h => by
  simpa using cells_read 0 ws j h

/-- A block with one event to come. -/
def facing (e : Event) : State := { State.resetWith Alphabet.test with events := [e] }

/-- A busy block, PACK pending, with one event to come. -/
def busyFacing (e : Event) : State := { facing e with pend := some 0x3#4 }

theorem witness_ResetEventFromAnyState :
    (busyFacing .reset).events = .reset :: [] ∧ (busyFacing .reset).busy = true := ⟨rfl, rfl⟩

theorem witness_StepRunsTheDecodedCommand :
    ({ loaded [] 0 false with pend := some 0x1#4 } : State).pend = some 0x1#4 ∧ decodeOp 0x1#4 = .ok .symAt ∧
    (busyFacing .blockTurn).pend = some 0x3#4 ∧ decodeOp 0x3#4 = .ok .pack ∧
    (busyFacing .blockTurn).events = .blockTurn :: [] := by decide

theorem witness_ReservedOpFailsBadCommand :
    ({ loaded [] 0 false with pend := some 0x0#4 } : State).pend = some 0x0#4 ∧ (0x0#4).toNat = 0 ∧ 9 ≤ (0x9#4).toNat ∧
    ({ loaded [] 0 false with pend := some 0x9#4 } : State).events = [] ∧
    ({ facing .blockTurn with pend := some 0xF#4 } : State).events = .blockTurn :: [] := by decide

theorem witness_CmdWriteStartsACommand :
    (facing (.write 0x0000#16 0xFFFFFFF0#32)).busy = false ∧
    (facing (.write 0x0000#16 0xFFFFFFF0#32)).events = .write 0x0000#16 0xFFFFFFF0#32 :: [] := ⟨rfl, rfl⟩

theorem witness_HostWriteIgnoredWhileBusy (a : HostAddr) (v : Word) :
    (busyFacing (.write a v)).busy = true ∧ (busyFacing (.write a v)).events = .write a v :: [] := ⟨rfl, rfl⟩

/-- Any address, so each clause's: 0x0002, 0x0004, 0x0001, 0x0003, 0x0005, 0x3FFF and 0x5000 meet the clauses' ranges. -/
theorem witness_HostWriteToRegisters (a : HostAddr) (v : Word) :
    (facing (.write a v)).busy = false ∧ (facing (.write a v)).events = .write a v :: [] ∧
    (5 ≤ (0x0005#16).toNat ∧ (0x3FFF#16).toNat < 0x4000) ∧
    0x4000 + Config.block.ibufDepth ≤ (0x5000#16).toNat := ⟨rfl, rfl, by decide, by decide⟩

theorem witness_HostWriteToIbuf (v : Word) :
    (facing (.write 0x4FFF#16 v)).busy = false ∧ (facing (.write 0x4FFF#16 v)).events = .write 0x4FFF#16 v :: [] ∧
    4095 < Config.block.ibufDepth ∧ (0x4FFF#16).toNat = 0x4000 + 4095 ∧ (0x4000#16).toNat = 0x4000 + 0 :=
  ⟨rfl, rfl, by decide, by decide, by decide⟩

/-- Any address, with a written and an unwritten IBUF entry and a written OBUF entry at the ends of the windows. -/
theorem witness_HostReadWhileIdle (a : HostAddr) :
    let s : State := { facing (.read a) with ibuf := [(4095, 7#32)], obuf := [(5119, 9#32)] }
    s.busy = false ∧ s.events = .read a :: [] ∧
    (4095 < Config.block.ibufDepth ∧ (0x4FFF#16).toNat = 0x4000 + 4095 ∧ s.ibuf.read 4095 = some 7#32) ∧
    (s.ibuf.read 0 = none ∧ (0x4000#16).toNat = 0x4000 + 0) ∧
    (5119 < Config.block.obufDepth ∧ (0x93FF#16).toNat = 0x8000 + 5119 ∧ s.obuf.read 5119 = some 9#32) ∧
    (0x4000 + Config.block.ibufDepth ≤ (0x5000#16).toNat ∧ (0x7FFF#16).toNat < 0x8000) ∧
    0x8000 + Config.block.obufDepth ≤ (0x9400#16).toNat :=
  ⟨rfl, rfl, ⟨by decide, by decide, rfl⟩, ⟨rfl, by decide⟩, ⟨by decide, by decide, rfl⟩, by decide, by decide⟩

theorem witness_HostReadWhileBusy (a : HostAddr) :
    let s : State := { busyFacing (.read a) with ibuf := [(4095, 7#32)] }
    s.busy = true ∧ s.events = .read a :: [] ∧
    (4095 < Config.block.ibufDepth ∧ (0x4FFF#16).toNat = 0x4000 + 4095 ∧ s.ibuf.read 4095 = some 7#32) ∧
    s.ibuf.read 0 = none ∧ (0x8000 ≤ (0x8000#16).toNat ∧ (0x93FF#16).toNat < 0x8000 + Config.block.obufDepth) ∧
    0x8000 + Config.block.obufDepth ≤ (0x9400#16).toNat :=
  ⟨rfl, rfl, ⟨by decide, by decide, rfl⟩, rfl, by decide, by decide⟩

theorem witness_OnlyUnwrittenOutputReadsFault :
    (facing (.read 0x8000#16)).events = .read 0x8000#16 :: [] ∧ (Event.read 0x8000#16 ≠ .blockTurn) ∧
    (facing (.read 0x8000#16)).busy = false ∧ 0 < Config.block.obufDepth ∧ (0x8000#16).toNat = 0x8000 + 0 ∧
    (facing (.read 0x8000#16)).obuf.read 0 = none := ⟨rfl, by decide, rfl, by decide, by decide, rfl⟩

/-! ### The commands -/

/-- SYM_AT, INDEX_OF, PACK, UNPACK and ENCODE have these hypotheses: a full input, and an empty one. -/
theorem witness_SymAtResult :
    (loaded [0x3FF#32, 0xFFFFFC05#32] 2 true).ilen.toNat ≤ Config.block.ibufDepth ∧
    Written (loaded [0x3FF#32, 0xFFFFFC05#32] 2 true).ibuf (loaded [0x3FF#32, 0xFFFFFC05#32] 2 true).ilen.toNat ∧
    Written (loaded [] 0 false).ibuf (loaded [] 0 false).ilen.toNat := by decide

/-- Both clauses of INDEX_OF: a symbol that is found and one that is not. -/
theorem witness_IndexOfResult :
    (loaded [0x4E00#32, 0x0041#32] 2 false).ilen.toNat ≤ Config.block.ibufDepth ∧
    Written (loaded [0x4E00#32, 0x0041#32] 2 false).ibuf (loaded [0x4E00#32, 0x0041#32] 2 false).ilen.toNat ∧
    symbol Alphabet.test 0#10 = (loaded [0x4E00#32, 0x0041#32] 2 false).ibuf.word 0 ∧
    ∀ g : Group, symbol Alphabet.test g ≠ (loaded [0x4E00#32, 0x0041#32] 2 false).ibuf.word 1 :=
  ⟨by decide, by decide, by rw [symbol_test]; rfl, symbol_test_ne (.inl (by decide))⟩

theorem witness_PackResult :
    (loaded [0xDE#32] 1 false).ilen.toNat ≤ Config.block.ibufDepth ∧
    Written (loaded [0xDE#32] 1 false).ibuf (loaded [0xDE#32] 1 false).ilen.toNat := by decide

theorem witness_UnpackResult :
    (loaded [0x3FF#32] 1 true).ilen.toNat ≤ Config.block.ibufDepth ∧
    Written (loaded [0x3FF#32] 1 true).ibuf (loaded [0x3FF#32] 1 true).ilen.toNat ∧
    (loaded [0x3FF#32] 1 true).flag = true ∧ (loaded [0x3FF#32] 1 false).flag = false := by decide

theorem witness_HdrEncResult :
    (loaded [1#32, 2#32, 3#32, 4#32, 5#32] 5 true).ilen.toNat = 5 ∧
    Written (loaded [1#32, 2#32, 3#32, 4#32, 5#32] 5 true).ibuf 5 := by decide

/-- The five symbols of V-HD-6, as groups 4, 0x20, 0xC1, 5 and the flag symbol A(1), with more items behind them. -/
theorem witness_HdrDecResult :
    let s := loaded [0x4E04#32, 0x4E20#32, 0x4EC1#32, 0x4E05#32, 0x4E01#32, 0#32] 9 false
    5 ≤ s.ilen.toNat ∧ s.ilen.toNat ≤ Config.block.ibufDepth ∧
    s.ibuf.read 0 = some (symbol s.rom 0x004#10) ∧ s.ibuf.read 1 = some (symbol s.rom 0x020#10) ∧
    s.ibuf.read 2 = some (symbol s.rom 0x0C1#10) ∧ s.ibuf.read 3 = some (symbol s.rom 0x005#10) ∧
    s.ibuf.read 4 = some (symbol s.rom (if true then 1#10 else 0#10)) := by
  refine ⟨by decide, by decide, ?_, ?_, ?_, ?_, ?_⟩ <;>
    (show _ = some (symbol Alphabet.test _); rw [symbol_test]; rfl)

theorem witness_EncodeResult :
    (loaded [0xDE#32, 0xAD#32, 0xBE#32, 0xEF#32] 4 false).ilen.toNat ≤ Config.block.ibufDepth ∧
    Written (loaded [0xDE#32, 0xAD#32, 0xBE#32, 0xEF#32] 4 false).ibuf
      (loaded [0xDE#32, 0xAD#32, 0xBE#32, 0xEF#32] 4 false).ilen.toNat := by decide

/-- The words of a stream with header digest groups `hs`, flag 0 and no payload. -/
def bareStream (hs : List Group) : List Word := (hs ++ [if false then 1#10 else 0#10] ++ []).map (symbol Alphabet.test)

/-- The stream of the empty payload, whatever the open HASH256 is. -/
theorem witness_DecodeResult :
    let s := loaded (bareStream (pack ((Config.block.hash256 []).toList.take 5))) 5 false
    ([] : List Byte) = unpack .dropLast [] false ∧ s.ilen.toNat = 5 + ([] : List Group).length ∧
    s.ilen.toNat ≤ Config.block.ibufDepth ∧
    s.ibuf.holds ((pack ((Config.block.hash256 []).toList.take 5) ++ [if false then 1#10 else 0#10] ++ []).map
      (symbol s.rom)) :=
  ⟨by decide, by simp [loaded], by simp [loaded, Config.block_ibufDepth], cells_holds _⟩

/-! ### Failures -/

theorem witness_BadLengthExactly :
    Config.block.ibufDepth < (loaded [] 4097 false).ilen.toNat ∧
    (Instr.hdrEnc = .hdrEnc ∧ (loaded [] 4 false).ilen.toNat ≠ 5) ∧
    ∃ t, exec .hdrEnc (loaded [] 4 false) = .next t ∧ t.code = .badLength :=
  ⟨by decide, by decide, _, rfl, rfl⟩

theorem witness_DecodeLengthFloor : (loaded [] 4 false).ilen.toNat ≤ 4 := by decide

theorem witness_HdrDecFailures :
    (loaded [] 4 false).ilen.toNat < 5 ∧
    (let s := loaded [0x0041#32, 0x4E20#32, 0x4EC1#32, 0x4E05#32, 0x4E05#32] 5 true
     5 ≤ s.ilen.toNat ∧ s.ilen.toNat ≤ Config.block.ibufDepth ∧ Written s.ibuf 5 ∧
      ∃ p, p < 5 ∧ ∀ g : Group, symbol s.rom g ≠ s.ibuf.word p) ∧
    (let s := loaded [0x4E00#32, 0x4E00#32, 0x4E00#32, 0x4E00#32, 0x4E02#32] 5 true
     Written s.ibuf 5 ∧ (∀ p, p < 4 → ∃ g : Group, symbol s.rom g = s.ibuf.word p) ∧
      ∃ g : Group, 2 ≤ g.toNat ∧ symbol s.rom g = s.ibuf.word 4) := by
  refine ⟨by decide, ⟨by decide, by decide, by decide, 0, by decide, symbol_test_ne (.inl (by decide))⟩,
    by decide, fun p hp => ⟨0#10, ?_⟩, 2#10, by decide, (symbol_test _).trans rfl⟩
  have : ∀ p, p < 4 →
      (loaded [0x4E00#32, 0x4E00#32, 0x4E00#32, 0x4E00#32, 0x4E02#32] 5 true).ibuf.word p = 0x4E00#32 := by decide
  exact (symbol_test _).trans (this p hp).symm

theorem witness_DecodeSymbolFailuresInOrder :
    (let s := loaded [0x0041#32, 0x4E00#32, 0x4E00#32, 0x4E00#32, 0x4E05#32] 5 false
     5 ≤ s.ilen.toNat ∧ s.ilen.toNat ≤ Config.block.ibufDepth ∧ Written s.ibuf s.ilen.toNat ∧
      ∃ p, p < 5 ∧ ∀ g : Group, symbol s.rom g ≠ s.ibuf.word p) ∧
    (let s := loaded [0x4E00#32, 0x4E00#32, 0x4E00#32, 0x4E00#32, 0x4E02#32, 0x0041#32] 6 false
     Written s.ibuf s.ilen.toNat ∧ (∀ p, p < 4 → s.ibuf.word p = symbol s.rom 0#10) ∧
      2 ≤ (2#10).toNat ∧ symbol s.rom 2#10 = s.ibuf.word 4) ∧
    (let s := loaded [0x4E00#32, 0x4E00#32, 0x4E00#32, 0x4E00#32, 0x4E01#32, 0x0041#32] 6 false
     Written s.ibuf s.ilen.toNat ∧ (∀ p, p < 4 → s.ibuf.word p = symbol s.rom 0#10) ∧
      (1#10).toNat < 2 ∧ symbol s.rom 1#10 = s.ibuf.word 4 ∧
      ∃ p, 5 ≤ p ∧ p < s.ilen.toNat ∧ ∀ g : Group, symbol s.rom g ≠ s.ibuf.word p) := by
  have h0 : symbol Alphabet.test 0#10 = 0x4E00#32 := symbol_test _
  refine ⟨⟨by decide, by decide, by decide, 0, by decide, symbol_test_ne (.inl (by decide))⟩,
    ⟨by decide, ?_, by decide, (symbol_test _).trans rfl⟩,
    by decide, ?_, by decide, (symbol_test _).trans rfl, 5, by decide, by decide, symbol_test_ne (.inl (by decide))⟩
  · show ∀ p, p < 4 → _ = symbol Alphabet.test 0#10
    rw [h0]; decide
  · show ∀ p, p < 4 → _ = symbol Alphabet.test 0#10
    rw [h0]; decide

/-- Four header groups whose digest is not the truncated hash of the empty payload, whatever the open HASH256 is. -/
def wrongDigest : List Group :=
  if unpackRaw [0#10, 0#10, 0#10, 0#10] ≠ (Config.block.hash256 (unpack .dropLast [] false)).toList.take 5 then
    [0#10, 0#10, 0#10, 0#10]
  else [1#10, 0#10, 0#10, 0#10]

theorem witness_DecodeChecksumMismatch :
    let s := loaded (bareStream wrongDigest) 5 false
    wrongDigest.length = 4 ∧ s.ilen.toNat = 5 + ([] : List Group).length ∧ s.ilen.toNat ≤ Config.block.ibufDepth ∧
    s.ibuf.holds ((wrongDigest ++ [if false then 1#10 else 0#10] ++ []).map (symbol s.rom)) ∧
    unpackRaw wrongDigest ≠ (Config.block.hash256 (unpack .dropLast [] false)).toList.take 5 := by
  refine ⟨?_, by simp [loaded], by simp [loaded, Config.block_ibufDepth], cells_holds _, ?_⟩
  · unfold wrongDigest; split <;> rfl
  · unfold wrongDigest
    split
    · assumption
    · rename_i h
      rw [← not_not.mp h]
      decide

theorem witness_CommandsFaultExactlyOnUnwrittenInput :
    Written (loaded [1#32] 1 false).ibuf (readCount Config.block.ibufDepth .pack (loaded [1#32] 1 false).ilen.toNat) ∧
    ¬ Written (loaded [1#32] 2 false).ibuf
      (readCount Config.block.ibufDepth .decode (loaded [1#32] 5 false).ilen.toNat) := by decide

/-! ### Frames -/

theorem packed_empty : exec .pack (loaded [] 0 true) = .next ((loaded [] 0 true).finishOk []) := rfl

theorem witness_CommandsEndWithACode : ∃ t, exec .pack (loaded [] 0 true) = .next t ∧ Instr.pack ≠ .hdrDec :=
  ⟨_, packed_empty, by decide⟩

theorem witness_CommandsKeepTheirInputs : ∃ t, exec .pack (loaded [] 0 true) = .next t := ⟨_, packed_empty⟩

theorem witness_CommandsWriteOnlyTheirOutput : ∃ t, exec .pack (loaded [] 0 true) = .next t ∧ t.olen.toNat ≤ 0 :=
  ⟨_, packed_empty, by decide⟩

/-- Both alternatives: another command, and HDR_DEC that fails. -/
theorem witness_OnlyHdrDecWritesFlag :
    (∃ t, exec .hdrDec (loaded [] 4 true) = .next t ∧ t.code ≠ .ok) ∧
    ∃ t, exec .pack (loaded [] 0 true) = .next t ∧ Instr.pack ≠ .hdrDec :=
  ⟨⟨_, rfl, by decide⟩, _, packed_empty, by decide⟩

theorem witness_FailureIsAllOrNothing : ∃ t, exec .hdrEnc (loaded [] 4 true) = .next t ∧ t.code ≠ .ok :=
  ⟨_, rfl, by decide⟩

/-- Two states that differ in OBUF and in IBUF beyond the read set of HDR_ENC. -/
theorem witness_ResultDependsOnTheReadSetOnly :
    let s := loaded [1#32, 2#32, 3#32, 4#32, 5#32] 5 true
    let s' : State := { loaded [1#32, 2#32, 3#32, 4#32, 5#32, 6#32] 5 true with obuf := [(0, 9#32)] }
    s.ilen = s'.ilen ∧ s.flag = s'.flag ∧ s.rom = s'.rom ∧
    (∀ j, j < readCount Config.block.ibufDepth .hdrEnc s.ilen.toNat → s.ibuf.read j = s'.ibuf.read j) ∧
    ∃ t, exec .hdrEnc s = .next t := by
  have h := (hdrEncCmd_run (c := Config.block) (s := loaded [1#32, 2#32, 3#32, 4#32, 5#32] 5 true) (by decide)).trans
    (State.withInput_written _ (by decide))
  exact ⟨by decide, by decide, rfl, by decide, _, h⟩

/-! ### The machine as a whole -/

/-- A block with a result of one word. -/
def withResult (e : Event) : State := { facing e with obuf := [(0, 7#32)], olen := 1#16 }

theorem withResult_inv (e : Event) : Inv Config.block (withResult e) :=
  { ibuf_wf := .nil
    ibuf_within := by simp [withResult, facing]
    obuf_wf := by simp [withResult, Memory.wf]
    obuf_within := by simp [withResult, Config.block_obufDepth]
    busy_code := by intro h; cases h
    olen_le := by simp [withResult, Config.block_obufDepth]
    out_written := by
      intro j hj
      have : j < 1 := hj
      obtain rfl : j = 0 := by omega
      exact rfl }

theorem witness_StepKeepsInvariant :
    Inv Config.block (withResult (.write 0x0000#16 0x3#32)) ∧ ∃ t, step (withResult (.write 0x0000#16 0x3#32)) = .next t :=
  ⟨withResult_inv _, _, rfl⟩

theorem witness_HostCanReadEveryResult :
    Inv Config.block (withResult (.read 0x8000#16)) ∧ (withResult (.read 0x8000#16)).busy = false ∧
    0 < (withResult (.read 0x8000#16)).olen.toNat ∧
    (withResult (.read 0x8000#16)).events = .read (BitVec.ofNat 16 (0x8000 + 0)) :: [] :=
  ⟨withResult_inv _, rfl, by decide, rfl⟩

theorem witness_PendingCommandFinishes :
    let s : State := { busyFacing (.read 0x0001#16) with events := [.read 0x0001#16, .write 0x0002#16 7#32] }
    s.busy = true ∧ ∀ e ∈ s.events, (∃ a, e = Event.read a) ∨ ∃ a v, e = Event.write a v := by
  refine ⟨rfl, fun e he => ?_⟩
  rcases List.mem_cons.mp he with rfl | he
  · exact .inl ⟨_, rfl⟩
  · rcases List.mem_cons.mp he with rfl | he
    · exact .inr ⟨_, _, rfl⟩
    · cases he

theorem witness_CommandSeesTheOperandsOfItsStart :
    let es : List Event := [.read 0x0001#16]
    let s : State :=
      { loaded [] 0 false with events := .write 0x0000#16 0x3#32 :: (es ++ [Event.blockTurn]) }
    s.busy = false ∧ decode 0x3#32 = .ok .pack ∧
    (∀ e ∈ es, (∃ a, e = Event.read a) ∨ ∃ a w, e = Event.write a w) := by
  refine ⟨rfl, by decide, fun e he => ?_⟩
  rcases List.mem_cons.mp he with rfl | he
  · exact .inl ⟨_, rfl⟩
  · cases he

theorem witness_PollLeavesExactlyWhenNotBusy :
    let prog := HostLine.expand 0 (.run .pack)
    let y : System := { agent := { HostAgent.start with pc := 1 }, block := (loaded [] 0 false).writeCmd 0x3#32 }
    y.agent.halted = false ∧ y.agent.todo = [] ∧ prog[1]? = some (.label (.pollLoop 0)) ∧
    (∀ q, q < 1 → prog[q]? ≠ some (.label (.pollLoop 0))) ∧ prog[1 + 1]? = some (.rd .pollWord .status) ∧
    prog[1 + 2]? = some (.bnz .pollWord 0x80000000#32 (.pollLoop 0)) ∧ y.agent.pc = 1 ∧ y.block.busy = true :=
  ⟨rfl, rfl, rfl, by decide, rfl, rfl, rfl, rfl⟩

/-- The five items of R7 as the statement spells them out, at the test configuration with the parameters it varies. -/
abbrev MeetsR7 (c : Config) : Prop :=
  c.alphabet.length = 1024 ∧
  (∀ x ∈ c.alphabet, x.toNat < 2 ^ c.symW) ∧
  (∀ i a b, c.alphabet[i]? = some a → c.alphabet[i + 1]? = some b → a.toNat < b.toNat) ∧
  (5 ≤ c.ibufDepth ∧ c.ibufDepth ≤ 16384) ∧
  (5 * c.ibufDepth / 4 ≤ c.obufDepth ∧ 5 + (4 * c.ibufDepth + 4) / 5 ≤ c.obufDepth ∧ c.obufDepth ≤ 32768)

/-- A word of the test alphabet, by its place. -/
theorem test_alphabet_entry {i : Nat} {a : Word} (h : testConfig.alphabet[i]? = some a) :
    a.toNat = 0x4E00 + i ∧ i < 1024 := by
  obtain ⟨hi, rfl⟩ := List.getElem?_eq_some_iff.mp h
  have hl : i < 1024 := by simpa [testConfig, Alphabet.test.size] using hi
  have he : testConfig.alphabet[i]'hi = BitVec.ofNat 32 (0x4E00 + i) := countUp_getElem _ _ _ _
  exact ⟨(congrArg BitVec.toNat he).trans (Nat.mod_eq_of_lt (by omega)), hl⟩

/-- The test configuration meets the five items; others break the depth items; a third has SYM_W out of range. -/
theorem witness_BadConfigurationIsRefused :
    (1 ≤ testConfig.symW ∧ testConfig.symW ≤ 32 ∧ MeetsR7 testConfig) ∧
    ¬ MeetsR7 { testConfig with ibufDepth := 4 } ∧ ¬ MeetsR7 { testConfig with obufDepth := 32769 } ∧
    ¬ MeetsR7 { testConfig with symW := 14 } ∧ ¬ MeetsR7 { testConfig with alphabet := [] } ∧
    ({ testConfig with symW := 0 } : Config).symW = 0 ∧ 32 < ({ testConfig with symW := 33 } : Config).symW := by
  refine ⟨⟨by decide, by decide, Alphabet.test.size, ?_, ?_, by decide, by decide⟩, ?_, ?_, ?_, ?_, rfl, by decide⟩
  · intro x hx
    obtain ⟨i, hi⟩ := List.getElem?_of_mem hx
    have := test_alphabet_entry hi
    show x.toNat < 2 ^ 21
    omega
  · intro i a b ha hb
    have := test_alphabet_entry ha
    have := test_alphabet_entry hb
    omega
  · exact fun h => absurd h.2.2.2.1.1 (by decide)
  · exact fun h => absurd h.2.2.2.2.2.2 (by decide)
  · exact fun h => absurd (h.2.1 (BitVec.ofNat 32 0x4E00) (List.Mem.head (countUp (0x4E00 + 1) 1023))) (by decide)
  · exact fun h => absurd h.1 (by decide)

theorem witness_OutputFitsObuf : testConfig.wf = true ∧
    (∃ t, runCommand testConfig .pack (loaded [] 0 true) = .next t) ∧ testConfig.obufDepth ≤ 5120 :=
  ⟨test_config_wf, ⟨_, rfl⟩, by decide⟩

/-! ### The codec -/

theorem witness_AlphabetIsBijective : lookup Alphabet.test 0x4E00#32 = some 0#10 := by
  have h : symbol Alphabet.test 0#10 = 0x4E00#32 := symbol_test _
  have hr : List.range alphaN = 0 :: (List.range 1023).map Nat.succ := List.range_succ_eq_map
  unfold lookup
  rw [hr, List.map_cons]
  exact List.find?_cons_of_pos (by simpa using h)

theorem witness_PackerWorksWindowByWindow :
    [1#8, 2#8, 3#8, 4#8, 5#8].length % 5 = 0 ∧ [1#10, 2#10, 3#10, 4#10].length % 4 = 0 := by decide

/-- The aligned clause and the unaligned one. -/
theorem witness_RemainderResolution :
    10 * [1#10, 2#10, 3#10, 4#10].length % 8 = 0 ∧ 10 * [1#10].length % 8 ≠ 0 := by decide

theorem witness_DroppedBitsAreNotChecked :
    (0x000#10).toNat / 2 ^ (10 * (([] : List Group).length + 1) % 8) =
      (0x003#10).toNat / 2 ^ (10 * (([] : List Group).length + 1) % 8) ∧
    (([1#10, 2#10, 3#10] : List Group).length + 1) % 4 = 0 ∧ (0x300#10).toNat / 256 = (0x3FF#10).toNat / 256 := by
  decide

theorem witness_HeaderRoundTrip :
    [1#8, 2#8, 3#8, 4#8, 5#8].length = 5 ∧
    ∃ (d' : List Byte) (f' : Bool), d'.length = 5 ∧ hdrEncode [1#8, 2#8, 3#8, 4#8, 5#8] true = hdrEncode d' f' :=
  ⟨rfl, _, _, rfl, rfl⟩

/-- ENCODE of the empty payload, and the block with its output moved to the input. -/
theorem witness_CommandRoundTrip :
    ∃ s t u : State, s.ilen.toNat ≤ Config.block.ibufDepth ∧ exec .encode s = .next t ∧ u.rom = s.rom ∧
      u.ilen = t.olen ∧ ∀ j, j < t.olen.toNat → u.ibuf.read j = t.obuf.read j := by
  let s := loaded [] 0 false
  have h : exec .encode s = .next (s.finishOk ((encodeStream Config.block []).map (symbol s.rom))) :=
    (encodeCmd_run (c := Config.block) (s := loaded [] 0 false) (by decide)).trans
      (State.withInput_written _ (by decide))
  exact ⟨s, _, { s.finishOk ((encodeStream Config.block []).map (symbol s.rom)) with
    ibuf := (s.finishOk ((encodeStream Config.block []).map (symbol s.rom))).obuf
    ilen := (s.finishOk ((encodeStream Config.block []).map (symbol s.rom))).olen }, by decide, h, rfl, rfl,
    fun _ _ => rfl⟩

theorem witness_ForeignSymbolIsRejected :
    0 < (encodeStream testConfig []).length ∧ ∀ g : Group, symbol Alphabet.test g ≠ 0x0041#32 :=
  ⟨by decide, symbol_test_ne (.inl (by decide))⟩

/-- One case for each clause: a digest symbol, a flag index, flag 1 made 0, flag 0 made 1, and the same under the other
policy. -/
theorem witness_TamperedHeaderIsDetected :
    ((encodeStream testConfig [])[3]? ≠ some 0#10) ∧ 2 ≤ (2#10).toNat ∧
    ([0xDE#8, 0xAD#8, 0xBE#8, 0xEF#8].length % 5 = 4 ∧
      hash5 testConfig ([0xDE#8, 0xAD#8, 0xBE#8, 0xEF#8] ++ [0x00#8]) ≠
        hash5 testConfig [0xDE#8, 0xAD#8, 0xBE#8, 0xEF#8]) ∧
    ([0x00#8].length % 5 ≠ 4 ∧ [0x00#8] ≠ [] ∧ testConfig.flagPolicy = .dropLast ∧
      hash5 testConfig ([0x00#8] : List Byte).dropLast ≠ hash5 testConfig [0x00#8]) ∧
    ((pack [0x00#8]).length % 4 ≠ 0 ∧
      ({ testConfig with flagPolicy := .dropIfAligned } : Config).flagPolicy = .dropIfAligned) := by decide

theorem witness_TamperedPayloadIsDetected :
    5 + 1 < (encodeStream testConfig [0x00#8, 0x00#8]).length ∧
    (encodeStream testConfig [0x00#8, 0x00#8])[5]? ≠ some 1#10 := by decide

end Sys2Proof.Tests
end

/-! # Proofs for 00_scope.md: the refusal of bad configurations and the fit of every output -/

namespace Sys2Proof.Machine

/-! ## Well-formedness is the five items of R7 and the range of SYM_W -/

theorem ascending_iff_isChain (l : List Word) : ascending l = true ↔ l.IsChain (· < ·) := by
  induction l with
  | nil => simp [ascending]
  | cons a l ih =>
    cases l with
    | nil => simp [ascending]
    | cons b l => simp [ascending, ih]

/-- The ROM check of neighbours, read entry by entry (R7 item 3). -/
theorem ascending_iff (l : List Word) :
    ascending l = true ↔ ∀ i a b, l[i]? = some a → l[i + 1]? = some b → a.toNat < b.toNat := by
  rw [ascending_iff_isChain, List.isChain_iff_getElem]
  constructor
  · intro h i a b ha hb
    obtain ⟨hi, rfl⟩ := List.getElem?_eq_some_iff.mp hb
    obtain ⟨_, rfl⟩ := List.getElem?_eq_some_iff.mp ha
    exact h i hi
  · intro h i hi
    exact h i _ _ (List.getElem?_eq_getElem (by omega)) (List.getElem?_eq_getElem hi)

/-- The five items of R7, in its order, as `Obligations.BadConfigurationIsRefused` spells them out. -/
def MeetsR7 (c : Config) : Prop :=
  c.alphabet.length = 1024 ∧
  (∀ x ∈ c.alphabet, x.toNat < 2 ^ c.symW) ∧
  (∀ i a b, c.alphabet[i]? = some a → c.alphabet[i + 1]? = some b → a.toNat < b.toNat) ∧
  (5 ≤ c.ibufDepth ∧ c.ibufDepth ≤ 16384) ∧
  (5 * c.ibufDepth / 4 ≤ c.obufDepth ∧ 5 + (4 * c.ibufDepth + 4) / 5 ≤ c.obufDepth ∧ c.obufDepth ≤ 32768)

theorem wf_iff_meetsR7 (c : Config) : c.wf = true ↔ (1 ≤ c.symW ∧ c.symW ≤ 32) ∧ MeetsR7 c := by
  simp only [Config.wf, Config.symWOk, Config.sizeOk, Config.entriesOk, Config.ascendingOk, Config.ibufOk,
    Config.obufOk, entriesFit, bytesIn, groupsFor, Bool.and_eq_true, decide_eq_true_eq, beq_iff_eq,
    List.all_eq_true, max_le_iff, ascending_iff, MeetsR7, and_assoc]

/-! ## A well-formed configuration is never refused, and any other always is -/

theorem withInput_ne_refused (s : State) (n : Nat) (k : List Word → State) (r : Refusal) :
    s.withInput n k ≠ .refused r := by
  unfold State.withInput
  split <;> nofun

/-- A command's check of ILEN ends it with a next state where it fails. -/
theorem guarded_ne_refused {p : Prop} [Decidable p] {t : State} {x : Result} {r : Refusal} (hx : x ≠ .refused r) :
    (if p then .next t else x) ≠ .refused r := by
  split
  · nofun
  · exact hx

theorem runCommand_ne_refused (c : Config) (i : Instr) (s : State) (r : Refusal) :
    runCommand c i s ≠ .refused r := by
  cases i with
  | symAt | indexOf | pack | unpack | hdrEnc | encode => exact guarded_ne_refused (withInput_ne_refused s _ _ r)
  | hdrDec | decode => exact guarded_ne_refused (guarded_ne_refused (withInput_ne_refused s _ _ r))

theorem blockStep_ne_refused {run : Instr → State → Result} (hrun : ∀ i s r, run i s ≠ .refused r) (s : State)
    (r : Refusal) : blockStep run s ≠ .refused r := by
  unfold blockStep
  split
  · nofun
  · split
    · exact hrun _ _ _
    · nofun

theorem hostRead_ne_refused (c : Config) (a : HostAddr) (s : State) (r : Refusal) :
    hostRead c a s ≠ .refused r := by
  unfold hostRead
  split <;> nofun

theorem turn_ne_refused {run : Instr → State → Result} (hrun : ∀ i s r, run i s ≠ .refused r) (c : Config)
    (s : State) (r : Refusal) : turn run c s ≠ .refused r := by
  unfold turn
  split
  · exact blockStep_ne_refused hrun _ _
  · exact blockStep_ne_refused hrun _ _
  · nofun
  · exact hostRead_ne_refused _ _ _ _
  · nofun

theorem stepConfigured_of_wf {c : Config} (h : c.wf = true) (s : State) :
    stepConfigured c s = turn (runCommand c) c s := if_pos h

theorem resetConfigured_of_wf {c : Config} (h : c.wf = true) :
    resetConfigured c = .next (State.resetWith (c.rom h)) := dif_pos h

theorem refused_of_not_wf {c : Config} (h : ¬ c.wf = true) :
    resetConfigured c = .refused .badConfiguration ∧ ∀ s, stepConfigured c s = .refused .badConfiguration :=
  ⟨dif_neg h, fun _ => if_neg h⟩

/-- Settles O42: the check `Config.wf` is R7 and the range of SYM_W (`wf_iff_meetsR7`), and it alone
decides a refusal. -/
theorem badConfigurationIsRefused : Obligations.BadConfigurationIsRefused := by
  refine ⟨fun c r7 hlo hhi hr7 => ?_, fun c hw => refused_of_not_wf fun h => ?_, fun s => ?_⟩
  · have hwf : c.wf = true ↔ r7 := by rw [wf_iff_meetsR7, hr7, MeetsR7, and_iff_right ⟨hlo, hhi⟩]
    constructor
    · intro h
      have hc := hwf.mpr h
      refine ⟨⟨_, resetConfigured_of_wf hc, rfl⟩, fun s r => ?_⟩
      rw [stepConfigured_of_wf hc]
      exact turn_ne_refused (runCommand_ne_refused c) c s r
    · exact fun h => refused_of_not_wf (mt hwf.mp h)
  · have hrange := ((wf_iff_meetsR7 c).mp h).1
    omega
  · rw [step_eq_turn, stepConfigured_of_wf Config.block_wf]

/-! ## Every output fits in OBUF -/

/-- However a command ends, one output goes to OBUF[0..], it fits, and OLEN.N is its length; a failed command's output
is empty (60_exceptions.md R204, R205). -/
theorem CommandEnd.output {c : Config} {i : Instr} {s t : State} (h : CommandEnd c i s t) (hc : c.wf = true) :
    ∃ out : List Word,
      out.length ≤ c.obufDepth ∧ t.olen.toNat = out.length ∧ t.obuf = s.obuf.writeFrom 0 out := by
  obtain ⟨hfit, hdepth⟩ := outBound_le hc
  cases h with
  | failed e ht he =>
    subst ht
    exact ⟨[], Nat.zero_le _, rfl, rfl⟩
  | finished out ht hlen =>
    subst ht
    exact ⟨out, hlen.trans hfit, olen_toNat (by omega), rfl⟩
  | header out f hi ht hlen =>
    subst ht
    exact ⟨out, hlen.trans hfit, olen_toNat (by omega), rfl⟩

theorem Memory.written_writeFrom (m : Memory) (out : List Word) : Written (m.writeFrom 0 out) out.length := by
  intro j hj
  rw [Memory.read_writeFrom, if_pos (by omega)]
  simpa using hj

theorem Memory.read_writeFrom_beyond (m : Memory) (out : List Word) {j : Nat} (hj : out.length ≤ j) :
    (m.writeFrom 0 out).read j = m.read j := by
  rw [Memory.read_writeFrom, if_neg (by omega)]

/-- Settles O43: a command's one output is within `outBound`, which R7 item 5 puts within OBUF_DEPTH. -/
theorem outputFitsObuf : Obligations.OutputFitsObuf := by
  intro c i s t hc hrun
  obtain ⟨out, hlen, holen, hobuf⟩ := (runCommand_end hrun).output hc
  rw [holen, hobuf]
  exact ⟨hlen, s.obuf.written_writeFrom out, fun j hj => s.obuf.read_writeFrom_beyond out (hlen.trans hj)⟩

end Sys2Proof.Machine

/-! # Proofs for 10_state.md: the state after reset, STATUS, what a command leaves unchanged, the one fault of a host
event, and the invariant -/

namespace Sys2Proof.Machine

/-! ## The invariant, operation by operation

Every operation changes a few fields only. Where none of them stands in `Inv`, the invariant carries over field by field
(`{ h with }`); where one does, its own law of Laws/Memory.lean takes its place. -/

section Invariant

variable {c : Config} {s t : State}

theorem Inv.setEvents (h : Inv c s) (rest : List Event) : Inv c { s with events := rest } := { h with }

theorem inv_resetWith (c : Config) (rom : Alphabet) : Inv c (State.resetWith rom) where
  ibuf_wf := .nil
  ibuf_within := nofun
  obuf_wf := .nil
  obuf_within := nofun
  busy_code := nofun
  olen_le := Nat.zero_le _
  out_written := nofun

theorem inv_blockReset (c : Config) (s : State) : Inv c s.blockReset := { inv_resetWith c s.rom with }

theorem Inv.after_hostRead {a : HostAddr} (h : Inv c s) (ht : hostRead c a s = .next t) : Inv c t := by
  obtain ⟨r, n, rfl⟩ := hostRead_cases ht
  exact { h with }

/-- A CMD write makes the block busy and clears CODE; an IBUF write keeps the buffer canonical and within its depth. -/
theorem Inv.after_hostWrite (h : Inv c s) (a : HostAddr) (v : Word) : Inv c (hostWrite c a v s) := by
  obtain heq | ⟨-, heq | heq | heq | ⟨i, hi, -, heq⟩⟩ := hostWrite_cases c a v s <;> rw [heq]
  · exact h
  · exact { h with busy_code := fun _ => rfl }
  · exact { h with }
  · exact { h with }
  · exact { h with
      ibuf_wf := Memory.write_wf i v h.ibuf_wf
      ibuf_within := Memory.write_within v hi h.ibuf_within }

theorem CommandEnd.ibuf {i : Instr} (h : CommandEnd c i s t) : t.ibuf = s.ibuf := by
  cases h <;> subst t <;> rfl

theorem CommandEnd.not_busy {i : Instr} (h : CommandEnd c i s t) : t.busy = false := by
  cases h <;> subst t <;> rfl

/-- However a command ends, OBUF takes one output that fits, and OLEN.N counts its words (`CommandEnd.output`). -/
theorem Inv.after_commandEnd {i : Instr} (h : Inv c s) (hc : c.wf = true) (he : CommandEnd c i s t) : Inv c t := by
  obtain ⟨out, hfit, holen, hobuf⟩ := he.output hc
  exact
    { ibuf_wf := he.ibuf ▸ h.ibuf_wf
      ibuf_within := he.ibuf ▸ h.ibuf_within
      obuf_wf := hobuf ▸ Memory.writeFrom_wf 0 out h.obuf_wf
      obuf_within := hobuf ▸ Memory.writeFrom_within (by omega) h.obuf_within
      busy_code := by simp [he.not_busy]
      olen_le := holen ▸ hfit
      out_written := by rw [holen, hobuf]; exact s.obuf.written_writeFrom out }

/-- A reserved OP ends as a command that fails does (30_encoding.md R73). -/
theorem Inv.after_fail (h : Inv c s) (e : StatusCode) : Inv c (s.fail e) :=
  { h with
    busy_code := nofun
    olen_le := Nat.zero_le _
    out_written := nofun }

theorem Inv.after_blockStep (h : Inv c s) (hc : c.wf = true) (ht : blockStep (runCommand c) s = .next t) : Inv c t := by
  obtain ⟨-, rfl⟩ | ⟨op, i, -, -, hrun⟩ | ⟨op, e, -, -, rfl⟩ := blockStep_cases ht
  · exact h
  · exact h.after_commandEnd hc (runCommand_end hrun)
  · exact h.after_fail _

theorem Inv.after_turn (h : Inv c s) (hc : c.wf = true) (ht : turn (runCommand c) c s = .next t) : Inv c t := by
  obtain ⟨-, hb⟩ | ⟨rest, -, hb⟩ | ⟨a, v, rest, -, rfl⟩ | ⟨a, rest, -, hr⟩ | ⟨rest, -, rfl⟩ := turn_cases ht
  · exact h.after_blockStep hc hb
  · exact (h.setEvents rest).after_blockStep hc hb
  · exact (h.setEvents rest).after_hostWrite a v
  · exact (h.setEvents rest).after_hostRead hr
  · exact inv_blockReset c _

end Invariant

/-- Settles O36: each event keeps the invariant (`Inv.after_turn`), and the block's configuration is well formed. -/
theorem stepKeepsInvariant : Obligations.StepKeepsInvariant := by
  intro s t h ht
  rw [step_eq_turn] at ht
  exact h.after_turn Config.block_wf ht

/-- Settles O37: empty buffers, no command pending, no output. -/
theorem resetMeetsInvariant : Obligations.ResetMeetsInvariant := inv_resetWith _ _

/-! ## The one fault of a host event -/

section HostRead

variable {c : Config} {s : State} {a : HostAddr}

theorem inObuf_iff : inObuf c a = true ↔ ∃ i, i < c.obufDepth ∧ a.toNat = 0x8000 + i := by
  simp only [inObuf, Bool.and_eq_true, decide_eq_true_eq]
  constructor
  · exact fun h => ⟨a.toNat - 0x8000, by omega, by omega⟩
  · rintro ⟨i, hi, ha⟩
    omega

/-- An idle read of an OBUF entry (20_memory.md R53). IBUF ends below OBUF, since its depth is at most 16384 (R51). -/
theorem hostReadResult_idle_obuf {i : Nat} (hib : c.ibufDepth ≤ 0x4000) (hidle : s.busy = false) (hi : i < c.obufDepth)
    (ha : a.toNat = 0x8000 + i) :
    hostReadResult c a s = (s.obuf.read i).elim .unwritten .word := by
  have hne : ∀ r : HostAddr, r.toNat < 0x8000 → a ≠ r := by rintro r hr rfl; omega
  have hin : inIbuf c a = false := by simp only [inIbuf, Bool.and_eq_false_iff, decide_eq_false_iff_not]; omega
  have hout : inObuf c a = true := inObuf_iff.mpr ⟨i, hi, ha⟩
  simp only [hostReadResult, hidle, hin, hout, hne 0x0001#16 (by decide), hne 0x0002#16 (by decide),
    hne 0x0003#16 (by decide), hne 0x0004#16 (by decide), ha, Nat.add_sub_cancel_left, Bool.false_and,
    Bool.false_eq_true, if_false, if_true]
  cases s.obuf.read i <;> rfl

/-- An address outside OBUF answers with a word or a draw (20_memory.md R53). -/
theorem inObuf_of_unwritten (h : hostReadResult c a s = .unwritten) : inObuf c a = true := by
  by_contra hout
  unfold hostReadResult at h
  rw [if_neg hout] at h
  repeat' split at h
  all_goals cases h

/-- While BUSY = 1 a read of OBUF is a draw (70_reset_and_hazards.md R236). -/
theorem not_busy_of_unwritten (h : hostReadResult c a s = .unwritten) : s.busy = false := by
  rw [← Bool.not_eq_true]
  intro hbusy
  have hdraw : (s.busy && (a == 0x0003#16 || a == 0x0004#16 || inObuf c a)) = true := by
    simp [hbusy, inObuf_of_unwritten h]
  unfold hostReadResult at h
  rw [if_pos hdraw] at h
  split at h <;> cases h

theorem hostReadResult_unwritten_iff (hib : c.ibufDepth ≤ 0x4000) :
    hostReadResult c a s = .unwritten ↔
      s.busy = false ∧ ∃ i, i < c.obufDepth ∧ a.toNat = 0x8000 + i ∧ s.obuf.read i = none := by
  constructor
  · intro h
    have hidle := not_busy_of_unwritten h
    obtain ⟨i, hi, ha⟩ := inObuf_iff.mp (inObuf_of_unwritten h)
    rw [hostReadResult_idle_obuf hib hidle hi ha] at h
    refine ⟨hidle, i, hi, ha, ?_⟩
    cases hr : s.obuf.read i with
    | none => rfl
    | some w => simp [hr] at h
  · rintro ⟨hidle, i, hi, ha, hr⟩
    simp [hostReadResult_idle_obuf hib hidle hi ha, hr]

theorem hostRead_fault_iff {f : Fault} :
    hostRead c a s = .fault f ↔ f = .unwrittenOutput ∧ hostReadResult c a s = .unwritten := by
  unfold hostRead
  cases hostReadResult c a s <;> simp [eq_comm]

end HostRead

/-- Settles O14: writes and resets go on, and a read faults where it finds an unwritten OBUF entry
(`hostReadResult_unwritten_iff`). -/
theorem onlyUnwrittenOutputReadsFault : Obligations.OnlyUnwrittenOutputReadsFault := by
  intro s e rest f he hturn
  rw [step_eq_turn]
  cases e with
  | blockTurn => exact absurd rfl hturn
  | write a v => simp [turn_write he]
  | reset => simp [turn_reset he]
  | read a =>
    have hfault := hostReadResult_unwritten_iff (c := Config.block) (s := { s with events := rest }) (a := a)
      (by decide)
    rw [turn_read he, hostRead_fault_iff, hfault]
    simp [State.busy]

/-! ## What a command leaves unchanged -/

/-- Only the `header` end writes FLAG, and it is HDR_DEC's and leaves CODE 0. -/
theorem CommandEnd.flag_eq {c : Config} {i : Instr} {s t : State} (h : CommandEnd c i s t)
    (hi : i ≠ .hdrDec ∨ t.code ≠ .ok) : t.flag = s.flag := by
  cases h with
  | failed e ht he => rw [ht, State.fail_flag]
  | finished out ht hlen => rw [ht, State.finishOk_flag]
  | header out f hdec ht hlen =>
    subst ht
    exact absurd hi (by simp [hdec])

/-- Settles O32. -/
theorem onlyHdrDecWritesFlag : Obligations.OnlyHdrDecWritesFlag := by
  intro i s t h
  rw [exec_eq_runCommand] at h
  exact (runCommand_end h).flag_eq

/-- Settles O33: the one output stored from OBUF[0] up has OLEN.N words (`CommandEnd.output`). -/
theorem commandsWriteOnlyTheirOutput : Obligations.CommandsWriteOnlyTheirOutput := by
  intro i s t h j hj
  rw [exec_eq_runCommand] at h
  obtain ⟨out, -, holen, hobuf⟩ := (runCommand_end h).output Config.block_wf
  rw [hobuf]
  exact s.obuf.read_writeFrom_beyond out (holen ▸ hj)

/-! ## STATUS and the state after reset -/

theorem StatusCode.bits_le (e : StatusCode) : e.bits.toNat ≤ 6 := by cases e <;> decide

/-- BUSY stands above the 31 bits that hold the zeros and CODE (R22). -/
theorem State.statusWord_toNat (s : State) :
    s.statusWord.toNat = (if s.busy then 2 ^ 31 else 0) + s.code.bits.toNat := by
  have hcode : s.code.bits.toNat < 2 ^ 31 := lt_of_lt_of_le s.code.bits.isLt (by decide)
  have hlow : (0#27 ++ s.code.bits).toNat = s.code.bits.toNat := (BitVec.toNat_append ..).trans (by simp)
  rw [State.statusWord, BitVec.toNat_append, hlow, ← Nat.shiftLeft_add_eq_or_of_lt hcode]
  cases s.busy <;> simp

/-- Settles O15. -/
theorem statusWordLayout : Obligations.StatusWordLayout :=
  ⟨fun s => ⟨s.statusWord_toNat, s.code.bits_le⟩, rfl, rfl, rfl, rfl, rfl, rfl, rfl⟩

/-- STATUS reads 0 exactly when no command is pending and CODE is OK (R22, R202). -/
theorem State.statusWord_idle_ok {s : State} (hidle : s.busy = false) (hok : s.code = .ok) : s.statusWord = 0#32 := by
  apply BitVec.eq_of_toNat_eq
  simp [State.statusWord_toNat, hidle, hok, StatusCode.bits]

/-- Settles O1: the registers and buffers as `State.resetWith` gives them, over the ROM of the configuration. -/
theorem resetLeavesTheSpecValues : Obligations.ResetLeavesTheSpecValues :=
  ⟨rfl, State.statusWord_idle_ok rfl rfl, rfl, rfl, rfl, rfl, rfl, Memory.read_nil, Memory.read_nil, rfl,
    State.blockReset_rom⟩

end Sys2Proof.Machine

/-! # Proofs for 20_memory.md: what a host write stores, what a host read returns, and the operands of a command -/

namespace Sys2Proof.Machine

/-! ## Host writes (R52) -/

section HostWrite

variable {c : Config} {s : State} {a : HostAddr} {v : Word} {rest : List Event}

theorem step_write (he : s.events = .write a v :: rest) :
    step s = .next (hostWrite Config.block a v { s with events := rest }) := turn_write he

/-- A write while BUSY = 1 is ignored (70_reset_and_hazards.md R235). -/
theorem hostWrite_busy (hbusy : s.busy = true) : hostWrite c a v s = s := if_pos hbusy

theorem hostWrite_cmd (hidle : s.busy = false) : hostWrite c 0x0000#16 v s = s.writeCmd v := by
  simp [hostWrite, hidle]

theorem hostWrite_ilen (hidle : s.busy = false) :
    hostWrite c 0x0002#16 v s = { s with ilen := v.extractLsb' 0 16 } := by
  simp [hostWrite, hidle]

theorem hostWrite_flag (hidle : s.busy = false) :
    hostWrite c 0x0004#16 v s = { s with flag := v.getLsbD 0 } := by
  simp [hostWrite, hidle]

/-- A write outside CMD, ILEN, FLAG and IBUF has no effect, busy or not (R52, R54). -/
theorem hostWrite_elsewhere (hcmd : a ≠ 0x0000#16) (hilen : a ≠ 0x0002#16) (hflag : a ≠ 0x0004#16)
    (hin : inIbuf c a = false) : hostWrite c a v s = s := by
  simp [hostWrite, hcmd, hilen, hflag, hin]

end HostWrite

/-- ILEN.N is bits 15:0 of the word (10_state.md R23). -/
theorem ilenField_eq (v : Word) : v.extractLsb' 0 16 = BitVec.ofNat 16 (v.toNat % 65536) := by
  apply BitVec.eq_of_toNat_eq
  simp

/-- FLAG.F is bit 0 of the word (10_state.md R25). -/
theorem flagField_eq (v : Word) : v.getLsbD 0 = decide (v.toNat % 2 = 1) := by
  simp [BitVec.getLsbD, Nat.testBit_zero]

/-- Registers stand below 5 (R51): an address from 5 up is none of them. -/
theorem addr_ne_register {a r : HostAddr} (hr : r.toNat < 5) (ha : 5 ≤ a.toNat) : a ≠ r := by
  rintro rfl
  omega

theorem inIbuf_eq_false_iff {c : Config} {a : HostAddr} :
    inIbuf c a = false ↔ a.toNat < 0x4000 ∨ 0x4000 + c.ibufDepth ≤ a.toNat := by
  simp only [inIbuf, Bool.and_eq_false_iff, decide_eq_false_iff_not]
  omega

theorem inObuf_eq_false_iff {c : Config} {a : HostAddr} :
    inObuf c a = false ↔ a.toNat < 0x8000 ∨ 0x8000 + c.obufDepth ≤ a.toNat := by
  simp only [inObuf, Bool.and_eq_false_iff, decide_eq_false_iff_not]
  omega

/-- Settles O11: the address is that of entry i, so `hostWrite_ibuf` gives the one entry written. -/
theorem hostWriteToIbuf : Obligations.HostWriteToIbuf := by
  intro s i a v rest hidle he hi ha
  have haddr : a = (HostTarget.ibuf i).addr := BitVec.eq_of_toNat_eq (by rw [ha, ibuf_addr (hi.trans (by decide))])
  refine ⟨s.ibuf.write i v, ?_, s.ibuf.read_write_same i v, fun j hj => s.ibuf.read_write_other v hj⟩
  rw [step_write he, haddr, hostWrite_ibuf (s := { s with events := rest }) hidle hi]

/-- Settles O10: one rule of the port for each clause. -/
theorem hostWriteToRegisters : Obligations.HostWriteToRegisters := by
  intro s a v rest hidle he
  have hidle' : State.busy { s with events := rest } = false := hidle
  rw [step_write he]
  refine ⟨?_, ?_, fun ha => ?_⟩
  · rintro rfl
    rw [hostWrite_ilen hidle', ilenField_eq]
  · rintro rfl
    rw [hostWrite_flag hidle', flagField_eq]
  · obtain rfl | rfl | hreserved := ha
    · rw [hostWrite_elsewhere (by decide) (by decide) (by decide) (by decide)]
    · rw [hostWrite_elsewhere (by decide) (by decide) (by decide) (by decide)]
    · have ha : 5 ≤ a.toNat := by omega
      rw [hostWrite_elsewhere (addr_ne_register (by decide) ha) (addr_ne_register (by decide) ha)
        (addr_ne_register (by decide) ha) (inIbuf_eq_false_iff.mpr (by omega))]

/-! ## Host reads (R53) -/

section HostReadResults

variable {c : Config} {s : State} {a : HostAddr} {rest : List Event}

theorem step_read_word {w : Word} (he : s.events = .read a :: rest) (h : hostReadResult Config.block a s = .word w) :
    step s = .next { s with events := rest, reply := some w } := by
  have h' : hostReadResult Config.block a { s with events := rest } = .word w := h
  rw [step_eq_turn, turn_read he, hostRead, h']

theorem step_read_anyWord (he : s.events = .read a :: rest) (h : hostReadResult Config.block a s = .anyWord) :
    ∃ w, step s = .next { s with events := rest, reply := some w, draws := s.draws + 1 } := by
  have h' : hostReadResult Config.block a { s with events := rest } = .anyWord := h
  exact ⟨Config.readDraw s.draws, by rw [step_eq_turn, turn_read he, hostRead, h']⟩

theorem hostReadResult_status : hostReadResult c 0x0001#16 s = .word s.statusWord := if_pos rfl

theorem hostReadResult_olen (hidle : s.busy = false) :
    hostReadResult c 0x0003#16 s = .word (s.olen.setWidth 32) := by
  simp [hostReadResult, hidle]

theorem hostReadResult_flag (hidle : s.busy = false) :
    hostReadResult c 0x0004#16 s = .word ((BitVec.ofBool s.flag).setWidth 32) := by
  simp [hostReadResult, hidle]

/-- ILEN reads back busy or not (70_reset_and_hazards.md R236). -/
theorem hostReadResult_ilen : hostReadResult c 0x0002#16 s = .word (s.ilen.setWidth 32) := by
  simp [hostReadResult, inObuf]

/-- A read of an IBUF entry, busy or not (R236). IBUF ends below OBUF, since its depth is at most 16384 (R51). -/
theorem hostReadResult_ibuf {i : Nat} (hib : c.ibufDepth ≤ 0x4000) (hi : i < c.ibufDepth)
    (ha : a.toNat = 0x4000 + i) : hostReadResult c a s = (s.ibuf.read i).elim .anyWord .word := by
  have hne : ∀ r : HostAddr, r.toNat < 5 → a ≠ r := fun r hr => addr_ne_register hr (by omega)
  have hin : inIbuf c a = true := by
    rw [← Bool.not_eq_false, inIbuf_eq_false_iff]
    omega
  have hout : inObuf c a = false := inObuf_eq_false_iff.mpr (by omega)
  cases hr : s.ibuf.read i <;>
    simp [hostReadResult, hin, hout, hne 0x0001#16 (by decide), hne 0x0002#16 (by decide), hne 0x0003#16 (by decide),
      hne 0x0004#16 (by decide), ha, hr]

/-- CMD and every address outside the registers and the buffers read as zero, busy or not (R53, R54, R236). -/
theorem hostReadResult_zero (hreg : a = 0x0000#16 ∨ 5 ≤ a.toNat) (hin : inIbuf c a = false)
    (hout : inObuf c a = false) : hostReadResult c a s = .word 0#32 := by
  have hne : ∀ r : HostAddr, r ≠ 0x0000#16 → r.toNat < 5 → a ≠ r := fun r h0 hr =>
    hreg.elim (fun ha => ha ▸ h0.symm) (addr_ne_register hr)
  simp [hostReadResult, hin, hout, hne 0x0001#16 (by decide) (by decide), hne 0x0002#16 (by decide) (by decide),
    hne 0x0003#16 (by decide) (by decide), hne 0x0004#16 (by decide) (by decide)]

/-- STATUS of an idle block is CODE alone (10_state.md R22). -/
theorem State.statusWord_idle (hidle : s.busy = false) : s.statusWord = s.code.bits.setWidth 32 := by
  apply BitVec.eq_of_toNat_eq
  have hcode := s.code.bits_le
  simp only [State.statusWord_toNat, hidle, Bool.false_eq_true, if_false, BitVec.toNat_setWidth]
  omega

end HostReadResults

theorem flagWord_eq (f : Bool) : (BitVec.ofBool f).setWidth 32 = if f then 1#32 else 0#32 := by cases f <;> rfl

/-- Settles O12: `hostReadResult` has one rule for each clause, and the step hands its word to the host. -/
theorem hostReadWhileIdle : Obligations.HostReadWhileIdle := by
  intro s a rest hidle he
  refine ⟨?status, ?ilen, ?olen, ?flag, fun i w hi ha hw => ?written, fun i hi ha hw => ?unwritten,
    fun i w hi ha hw => ?output, fun ha => ?zero⟩
  case status =>
    rintro rfl
    exact step_read_word he (by rw [hostReadResult_status, State.statusWord_idle hidle])
  case ilen =>
    rintro rfl
    exact step_read_word he hostReadResult_ilen
  case olen =>
    rintro rfl
    exact step_read_word he (hostReadResult_olen hidle)
  case flag =>
    rintro rfl
    exact step_read_word he (by rw [hostReadResult_flag hidle, flagWord_eq])
  case written => exact step_read_word he (by rw [hostReadResult_ibuf (by decide) hi ha, hw, Option.elim_some])
  case unwritten => exact step_read_anyWord he (by rw [hostReadResult_ibuf (by decide) hi ha, hw, Option.elim_none])
  case output =>
    exact step_read_word he (by rw [hostReadResult_idle_obuf (by decide) hidle hi ha, hw, Option.elim_some])
  case zero =>
    have hib : Config.block.ibufDepth ≤ 0x4000 := by decide
    obtain rfl | houtside := ha
    · exact step_read_word he (hostReadResult_zero (.inl rfl) (by decide) (by decide))
    · exact step_read_word he (hostReadResult_zero (.inr (by omega)) (inIbuf_eq_false_iff.mpr (by omega))
        (inObuf_eq_false_iff.mpr (by omega)))

/-! ## What a command leaves unchanged (R55) -/

/-- Every end of a command writes among OLEN, FLAG, CODE, PEND and OBUF only. -/
theorem CommandEnd.keeps_inputs {c : Config} {i : Instr} {s t : State} (h : CommandEnd c i s t) :
    t.ibuf = s.ibuf ∧ t.ilen = s.ilen ∧ t.rom = s.rom ∧ t.cmdOp = s.cmdOp ∧ t.events = s.events ∧
      t.reply = s.reply ∧ t.draws = s.draws := by
  cases h <;> subst t <;> exact ⟨rfl, rfl, rfl, rfl, rfl, rfl, rfl⟩

/-- Settles O31. -/
theorem commandsKeepTheirInputs : Obligations.CommandsKeepTheirInputs := by
  intro i s t h
  rw [exec_eq_runCommand] at h
  exact (runCommand_end h).keeps_inputs

/-! ## The operands of a command (R60) -/

section Accesses

variable {s t : State} {rest : List Event}

/-- A host access: a read or a write. -/
def Event.IsAccess (e : Event) : Prop := (∃ a, e = .read a) ∨ ∃ a v, e = .write a v

theorem runSteps_succ_of_step (k : Nat) (h : step s = .next t) : runSteps (k + 1) s = runSteps k t := by
  rw [runSteps, h]

theorem runSteps_one (s : State) : runSteps 1 s = step s := by
  rw [runSteps]
  cases step s <;> rfl

/-- A read while BUSY = 1 goes on, since OBUF is not looked at (70_reset_and_hazards.md R236). -/
theorem hostRead_busy (c : Config) (a : HostAddr) (hbusy : s.busy = true) :
    ∃ r n, hostRead c a s = .next { s with reply := r, draws := n } := by
  unfold hostRead
  cases h : hostReadResult c a s with
  | word w => exact ⟨_, _, rfl⟩
  | anyWord => exact ⟨_, _, rfl⟩
  | unwritten => simp [not_busy_of_unwritten h] at hbusy

/-- While BUSY = 1 a host access changes nothing but the model's own fields (R235, R236). -/
theorem step_access_busy {e : Event} (hbusy : s.busy = true) (hacc : e.IsAccess) (he : s.events = e :: rest) :
    ∃ r n, step s = .next { s with events := rest, reply := r, draws := n } := by
  have hbusy' : State.busy { s with events := rest } = true := hbusy
  obtain ⟨a, rfl⟩ | ⟨a, v, rfl⟩ := hacc
  · obtain ⟨r, n, hread⟩ := hostRead_busy Config.block a hbusy'
    exact ⟨r, n, (turn_read he).trans hread⟩
  · exact ⟨s.reply, s.draws, by rw [step_write he, hostWrite_busy hbusy']⟩

/-- Accesses made while a command is pending leave the block as it was. -/
theorem runSteps_accesses_busy {es : List Event} (hbusy : s.busy = true) (hacc : ∀ e ∈ es, e.IsAccess)
    (he : s.events = es ++ rest) :
    ∃ r n, ∀ k, runSteps (es.length + k) s = runSteps k { s with events := rest, reply := r, draws := n } := by
  induction es generalizing s with
  | nil =>
    refine ⟨s.reply, s.draws, fun k => ?_⟩
    rw [List.length_nil, Nat.zero_add, ← show s.events = rest from he]
  | cons e es ih =>
    obtain ⟨hfirst, hlater⟩ := List.forall_mem_cons.mp hacc
    obtain ⟨r, n, hstep⟩ := step_access_busy (rest := es ++ rest) hbusy hfirst he
    obtain ⟨r', n', hrun⟩ := ih (s := { s with events := es ++ rest, reply := r, draws := n }) hbusy hlater rfl
    refine ⟨r', n', fun k => ?_⟩
    rw [List.length_cons, Nat.succ_add, runSteps_succ_of_step _ hstep, hrun]

/-- The block's turn runs the command that PEND names (60_exceptions.md R201). -/
theorem step_block_command {op : Op} {i : Instr} (he : s.events = .blockTurn :: rest) (hp : s.pend = some op)
    (hop : decodeOp op = .ok i) : step s = exec i { s with events := rest } := by
  rw [step, turn_block he, blockStep, hp]
  simp only [hop]

end Accesses

/-- Settles O40: the CMD write latches the command, the accesses while it is pending leave its operands
(`runSteps_accesses_busy`), and the block's turn runs it on them. -/
theorem commandSeesTheOperandsOfItsStart : Obligations.CommandSeesTheOperandsOfItsStart := by
  intro s v i es hidle hdec hacc he
  have hstart : step s = .next (State.writeCmd { s with events := es ++ [.blockTurn] } v) := by
    rw [step_write he, hostWrite_cmd (s := { s with events := es ++ [.blockTurn] }) hidle]
  obtain ⟨r, n, hrun⟩ := runSteps_accesses_busy (s := State.writeCmd { s with events := es ++ [.blockTurn] } v)
    (State.writeCmd_busy _ v) hacc (State.writeCmd_events _ v)
  refine ⟨r, n, ?_⟩
  rw [runSteps_succ_of_step _ hstart, hrun, runSteps_one, step_block_command rfl rfl hdec]
  rfl

end Sys2Proof.Machine

/-! # Proofs for 30_encoding.md: the command word, the start of a command, the window table, and `poll` -/

namespace Sys2Proof.Machine

/-! ## The command word (R71 to R73) -/

/-- The decoder and `opOf` read the opcode map the same way (R72). -/
theorem decodeOp_eq_ok_iff {op : Op} {i : Instr} : decodeOp op = .ok i ↔ op = opOf i := by
  constructor
  · intro h
    unfold decodeOp at h
    split at h <;> cases h <;> exact BitVec.eq_of_toNat_eq ‹_›
  · rintro rfl
    cases i <;> rfl

theorem decode_eq_ok_iff {w : Word} {i : Instr} : decode w = .ok i ↔ opField w = opOf i := decodeOp_eq_ok_iff

/-- The reserved values are those outside the opcode map (R73). -/
theorem decodeOp_reserved {op : Op} (h : op.toNat = 0 ∨ 9 ≤ op.toNat) : decodeOp op = .error (.reservedOp op) := by
  unfold decodeOp
  split
  case h_9 => rfl
  all_goals omega

/-- The opcode table's mask keeps the OP field and clears the ignored bits. -/
theorem and_opMask (w : Word) : w &&& 0x0000000F#32 = (opField w).setWidth 32 := by
  apply BitVec.eq_of_toNat_eq
  have hmask : (w &&& 0x0000000F#32).toNat = w.toNat % 16 := Nat.and_two_pow_sub_one_eq_mod w.toNat 4
  have hop : (opField w).toNat = w.toNat % 16 := by simp [opField]
  rw [hmask, BitVec.toNat_setWidth, hop]
  omega

theorem and_opMask_eq_encode_iff {w : Word} {i : Instr} : w &&& 0x0000000F#32 = encode i ↔ opField w = opOf i := by
  have hinj : Function.Injective (BitVec.setWidth 32 : Op → Word) := fun a b h => by
    simpa using congrArg (BitVec.setWidth 4) h
  rw [and_opMask, encode, hinj.eq_iff]

/-- The row of the opcode table for a command. -/
def opRowOf (i : Instr) : OpRow := ⟨0x0000000F#32, encode i, i⟩

theorem mem_opcodeTable_iff {row : OpRow} : row ∈ opcodeTable ↔ row = opRowOf row.instr := by
  constructor
  · revert row
    decide
  · intro h
    rw [h]
    cases row.instr <;> decide

/-- Settles O3: a row's mask and value test the OP field (`and_opMask_eq_encode_iff`), and so does the decoder. -/
theorem decoderMatchesOpcodeTable : Obligations.DecoderMatchesOpcodeTable := by
  intro w i
  rw [decode_eq_ok_iff, ← and_opMask_eq_encode_iff]
  constructor
  · exact fun h => ⟨opRowOf i, mem_opcodeTable_iff.mpr rfl, rfl, h⟩
  · rintro ⟨row, hrow, rfl, h⟩
    rw [mem_opcodeTable_iff.mp hrow] at h
    exact h

theorem opField_append (ignored : BitVec 28) (op : Op) : opField (ignored ++ op : BitVec (28 + 4)) = op :=
  BitVec.extractLsb'_append_eq_right

theorem encode_eq_append (i : Instr) : encode i = (0#28 ++ opOf i : BitVec (28 + 4)) :=
  BitVec.setWidth_eq_append (by decide)

/-- Settles O4: the OP field is below the ignored bits (`opField_append`), and `encode` leaves those 0. -/
theorem decodeOfEncodeIsTheCommand : Obligations.DecodeOfEncodeIsTheCommand := by
  intro i ignored
  have hdec (x : BitVec 28) : decode (x ++ opOf i : BitVec (28 + 4)) = .ok i :=
    decode_eq_ok_iff.mpr (opField_append x (opOf i))
  exact ⟨hdec ignored, encode_eq_append i ▸ hdec 0#28, encode_eq_append i⟩

/-- Settles O5 by running the decoder on each word. -/
theorem writtenOutWordsDecode : Obligations.WrittenOutWordsDecode :=
  ⟨rfl, rfl, rfl, rfl, rfl, rfl, rfl, rfl, rfl, rfl⟩

/-- A reserved OP ends with BAD_COMMAND and reads nothing (R73). -/
theorem blockStep_reserved {run : Instr → State → Result} {s : State} {op : Op} (hp : s.pend = some op)
    (hop : op.toNat = 0 ∨ 9 ≤ op.toNat) : blockStep run s = .next (s.fail .badCommand) := by
  simp only [blockStep, hp, decodeOp_reserved hop]

/-- Settles O7: the block's turn is the only event that the step takes. -/
theorem reservedOpFailsBadCommand : Obligations.ReservedOpFailsBadCommand := by
  intro s op hp hop
  constructor
  · intro he
    exact (turn_idle he).trans (blockStep_reserved hp hop)
  · intro rest he
    exact (turn_block he).trans (blockStep_reserved hp hop)

/-! ## The start of a command (R70) -/

/-- STATUS reads BUSY alone once a command has started, since that clears CODE (10_state.md R22). -/
theorem State.statusWord_busy_ok {s : State} (hbusy : s.busy = true) (hok : s.code = .ok) :
    s.statusWord = 0x80000000#32 := by
  apply BitVec.eq_of_toNat_eq
  simp [State.statusWord_toNat, hbusy, hok, StatusCode.bits]

/-- Settles O8: the write is `State.writeCmd`. -/
theorem cmdWriteStartsACommand : Obligations.CmdWriteStartsACommand := by
  intro s v rest hidle he
  have hstep : step s = .next (State.writeCmd { s with events := rest } v) := by
    rw [step_write he, hostWrite_cmd (s := { s with events := rest }) hidle]
  exact ⟨_, hstep, rfl, State.statusWord_busy_ok rfl rfl, rfl, rfl, rfl, rfl, rfl, rfl, rfl, rfl, rfl, rfl⟩

/-! ## Bit strings and their chunks (00_scope.md R8) -/

theorem val_concat (s : List Bool) (b : Bool) : val (s ++ [b]) = Nat.bit b (val s) := by
  rw [val, List.foldl_concat, ← val, Nat.bit_val]

/-- Bit i of the number is bit i of the string counted from its end. -/
theorem testBit_val (s : List Bool) (i : Nat) : (val s).testBit i = s.reverse[i]?.getD false := by
  induction s using List.reverseRecOn generalizing i with
  | nil => simp [val]
  | append_singleton s b ih =>
    rw [val_concat]
    cases i with
    | zero => simp
    | succ i => simp [Nat.testBit_bit_succ, ih]

theorem bitsOf_injective {w : Nat} : Function.Injective (bitsOf : BitVec w → List Bool) := fun _ _ h =>
  BitVec.eq_of_getMsbD_eq fun i hi => List.map_inj_left.mp h i (List.mem_range.mpr hi)

/-- A bit string of w bits is the bit string of its value. -/
theorem bitsOf_ofNat_val {w : Nat} {s : List Bool} (h : s.length = w) : bitsOf (BitVec.ofNat w (val s)) = s := by
  refine List.ext_getElem (by simp [h]) fun i hi hi' => ?_
  subst h
  have hrev : s.length - 1 - i < s.length := by omega
  have hback : s.length - 1 - (s.length - 1 - i) = i := by omega
  simp only [bitsOf, List.getElem_map, List.getElem_range, BitVec.getMsbD_eq_getLsbD, BitVec.getLsbD_ofNat,
    testBit_val, List.getElem?_reverse hrev, hback]
  simp [hi', hrev]

theorem ofNat_val_bitsOf {w : Nat} (v : BitVec w) : BitVec.ofNat w (val (bitsOf v)) = v :=
  bitsOf_injective (bitsOf_ofNat_val (bitsOf_length v))

/-- A run of n bits after the first d is a field of the word. -/
theorem take_drop_bitsOf {w : Nat} (v : BitVec w) {d n : Nat} (h : d + n ≤ w) :
    ((bitsOf v).drop d).take n = bitsOf (v.extractLsb' (w - d - n) n) := by
  refine List.ext_getElem (by simp; omega) fun i hi hi' => ?_
  have hin : i < n := by simpa using hi'
  have hfit : w - d - n + n - i ≤ w := by omega
  have hpos : w - (w - d - n + n - i) = d + i := by omega
  simp [bitsOf, BitVec.getMsbD_extractLsb', hin, hfit, hpos]

/-- Chunks carry the bits that they were cut from. -/
theorem flatMap_bitsOf_chunks {w k : Nat} {s : List Bool} (h : w * k ≤ s.length) :
    (chunks w k s).flatMap bitsOf = s.take (w * k) := by
  induction k with
  | zero => simp [chunks]
  | succ k ih =>
    rw [Nat.mul_succ] at h
    have hlast : ((s.drop (w * k)).take w).length = w := by simp; omega
    have hsplit : chunks w (k + 1) s = chunks w k s ++ [BitVec.ofNat w (val ((s.drop (w * k)).take w))] := by
      simp [chunks, List.range_succ]
    rw [hsplit, List.flatMap_append, ih (by omega), List.flatMap_singleton, bitsOf_ofNat_val hlast, Nat.mul_succ,
      List.take_add]

theorem chunks_bitsOf {m w k : Nat} (v : BitVec m) (h : w * k ≤ m) :
    chunks w k (bitsOf v) = (List.range k).map fun j => v.extractLsb' (m - w * j - w) w := by
  refine List.map_congr_left fun j hj => ?_
  have hj' : w * j + w ≤ m := (Nat.mul_le_mul_left w (List.mem_range.mp hj)).trans h
  rw [take_drop_bitsOf v hj', ofNat_val_bitsOf]

/-! ## The window table (R78) -/

/-- Five bytes that carry the bits of X pack to the four groups that do. -/
theorem pack_chunks (X : BitVec 40) : pack (chunks 8 5 (bitsOf X)) = chunks 10 4 (bitsOf X) := by
  have hbits : bytesToBits (chunks 8 5 (bitsOf X)) = bitsOf X :=
    (flatMap_bitsOf_chunks (by simp)).trans (List.take_of_length_le (by simp))
  simp [pack, hbits]

theorem unpackRaw_chunks (X : BitVec 40) : unpackRaw (chunks 10 4 (bitsOf X)) = chunks 8 5 (bitsOf X) := by
  have hbits : groupsToBits (chunks 10 4 (bitsOf X)) = bitsOf X :=
    (flatMap_bitsOf_chunks (by simp)).trans (List.take_of_length_le (by simp))
  simp [unpackRaw, hbits]

/-- Settles O48: the table's two rows are the chunks of X, by bytes and by groups. -/
theorem windowTable : Obligations.WindowTable := by
  intro X
  have hbytes := chunks_bitsOf (w := 8) (k := 5) X (by decide)
  have hgroups := chunks_bitsOf (w := 10) (k := 4) X (by decide)
  exact ⟨(congrArg pack hbytes.symm).trans ((pack_chunks X).trans hgroups),
    (congrArg unpackRaw hgroups.symm).trans ((unpackRaw_chunks X).trans hbytes)⟩

/-! ## `poll` (R83) -/

section Poll

variable {prog : List HostStmt} {y : System}

/-- A label that stands nowhere earlier is the one a branch goes to. -/
theorem labelPlace_eq {l : HostLabel} {p : Nat} (hp : prog[p]? = some (.label l))
    (hfirst : ∀ q, q < p → prog[q]? ≠ some (.label l)) : labelPlace l prog = p := by
  obtain ⟨hlt, hget⟩ := List.getElem?_eq_some_iff.mp hp
  refine (List.findIdx_eq hlt).mpr ⟨by simp [hget], fun q hq => ?_⟩
  simpa [List.getElem?_eq_getElem (hq.trans hlt)] using hfirst q hq

theorem HostAgent.value_store (h : HostAgent) (x : HostVar) (w : Word) : (h.store x (some w)).value x = w := by
  simp [HostAgent.store, HostAgent.value]

theorem HostAgent.value_setPc (h : HostAgent) (n : Nat) (x : HostVar) :
    HostAgent.value { h with pc := n } x = h.value x := rfl

/-- Bit 31 of STATUS is BUSY (10_state.md R22). -/
theorem State.statusWord_and_busyBit (s : State) : s.statusWord &&& 0x80000000#32 ≠ 0#32 ↔ s.busy = true := by
  rw [State.statusWord]
  generalize s.busy = b
  generalize s.code.bits = e
  revert b e
  decide

section Statements

variable (hrun : y.agent.halted = false) (htodo : y.agent.todo = [])
include hrun htodo

theorem System.step_label {l : HostLabel} (hp : prog[y.agent.pc]? = some (.label l)) :
    System.step prog .host y = .next { y with agent := { y.agent with pc := y.agent.pc + 1 } } :=
  System.step_stmt hrun htodo hp

/-- A host read of STATUS, busy or not, leaves the block as it is (20_memory.md R61). -/
theorem System.step_rd_status {x : HostVar} (hp : prog[y.agent.pc]? = some (.rd x .status)) :
    System.step prog .host y =
      .next { agent := { y.agent with pc := y.agent.pc + 1 }.store x (some y.block.statusWord)
              block := { y.block with events := [], reply := some y.block.statusWord } } :=
  (System.step_stmt hrun htodo hp).trans (System.access_read hostReadResult_status)

theorem System.step_bnz {x : HostVar} {mask : Word} {l : HostLabel}
    (hp : prog[y.agent.pc]? = some (.bnz x mask l)) :
    System.step prog .host y =
      .next { y with agent := { y.agent with
        pc := if y.agent.value x &&& mask ≠ 0#32 then labelPlace l prog else y.agent.pc + 1 } } := by
  rw [System.step_stmt hrun htodo hp, System.perform, HostAgent.value_setPc]
  split <;> rfl

end Statements

end Poll

/-- Settles O41: the branch tests the BUSY bit of the STATUS word that the read has just stored. -/
theorem pollLeavesExactlyWhenNotBusy : Obligations.PollLeavesExactlyWhenNotBusy := by
  intro prog y k p hrun htodo hlabel hfirst hread hbranch hpc
  subst hpc
  let y1 : System := { y with agent := { y.agent with pc := y.agent.pc + 1 } }
  let y2 : System :=
    { agent := { y1.agent with pc := y1.agent.pc + 1 }.store .pollWord (some y.block.statusWord)
      block := { y.block with events := [], reply := some y.block.statusWord } }
  refine ⟨y1, y2, _, System.step_label hrun htodo hlabel, System.step_rd_status (y := y1) hrun htodo hread,
    System.step_bnz (y := y2) hrun htodo hbranch, rfl, hrun, htodo, ?_⟩
  have hword : y2.agent.value .pollWord = y.block.statusWord := HostAgent.value_store _ _ _
  simp only [hword, State.statusWord_and_busyBit, labelPlace_eq hlabel hfirst]
  rfl

end Sys2Proof.Machine

/-! # Proofs for 40_alphabet.md: the two lookups find the one group of a symbol, and the commands SYM_AT and INDEX_OF -/

namespace Sys2Proof.Machine

/-! ## The membership lookup (R101, R106) -/

/-- The order of the ROM's symbols is the order of their indices. -/
theorem symbol_le_iff {rom : Alphabet} {g h : Group} : symbol rom g ≤ symbol rom h ↔ g.toNat ≤ h.toNat := by
  constructor
  · intro hle
    by_contra hlt
    exact BitVec.not_le.mpr (symbol_lt (by omega)) hle
  · intro hle
    rcases Nat.lt_or_eq_of_le hle with hlt | heq
    · exact BitVec.le_of_lt (symbol_lt hlt)
    · rw [BitVec.eq_of_toNat_eq heq]
      exact BitVec.le_refl _

theorem lookup_sound {rom : Alphabet} {s : Word} {g : Group} (h : lookup rom s = some g) : symbol rom g = s := by
  unfold lookup at h
  have hfound := List.find?_some h
  exact beq_iff_eq.mp hfound

/-- Every group stands in the list that the lookup searches. -/
theorem lookup_isSome {rom : Alphabet} {s : Word} {g : Group} (h : symbol rom g = s) :
    (lookup rom s).isSome = true := by
  unfold lookup
  refine List.find?_isSome.mpr ⟨g, List.mem_map.mpr ⟨g.toNat, List.mem_range.mpr g.isLt, ?_⟩, beq_iff_eq.mpr h⟩
  exact (BitVec.ofNat_toNat 10 g).trans (BitVec.setWidth_eq g)

theorem lookup_eq_some_iff {rom : Alphabet} {s : Word} {g : Group} : lookup rom s = some g ↔ symbol rom g = s := by
  refine ⟨lookup_sound, fun hg => ?_⟩
  obtain ⟨h, hh⟩ := Option.isSome_iff_exists.mp (lookup_isSome hg)
  rwa [symbol_injective (hg.trans (lookup_sound hh).symm)]

/-! ## The binary search (R102, R103) -/

/-- The search's invariant (R103) while k probes are to come: the candidate range [LO, HI) has 2^k groups, and g is one
of them. -/
structure SearchRegs.Brackets (g : Group) (k : Nat) (r : SearchRegs) : Prop where
  lo_le : r.lo ≤ g.toNat
  lt_hi : g.toNat < r.hi
  width : r.hi = r.lo + 2 ^ k
  hi_le : r.hi ≤ alphaN

/-- One probe halves the range and keeps the group searched for: it compares the middle index with that group's. -/
theorem searchStep_brackets {rom : Alphabet} {g : Group} {k : Nat} {r : SearchRegs} (h : r.Brackets g (k + 1)) :
    (searchStep rom (symbol rom g) r).Brackets g k := by
  obtain ⟨hlo, hhi, hwidth, hle⟩ := h
  rw [Nat.pow_succ] at hwidth
  have hmid : (r.lo + r.hi) / 2 = r.lo + 2 ^ k := by omega
  have hpos := Nat.two_pow_pos k
  have hprobe : (BitVec.ofNat 10 (r.lo + 2 ^ k)).toNat = r.lo + 2 ^ k :=
    (BitVec.toNat_ofNat _ _).trans (Nat.mod_eq_of_lt (by simp only [alphaN] at hle; omega))
  simp only [searchStep, hmid, symbol_le_iff, hprobe]
  split
  · exact ⟨by assumption, hhi, by simp only; omega, hle⟩
  · exact ⟨hlo, by simp only; omega, rfl, by simp only; omega⟩

/-- When no probe is left, one candidate is. -/
theorem searchSteps_lo {rom : Alphabet} {g : Group} {k : Nat} {r : SearchRegs} (h : r.Brackets g k) :
    (searchSteps rom (symbol rom g) k r).lo = g.toNat := by
  induction k generalizing r with
  | zero =>
    obtain ⟨hlo, hhi, hwidth, -⟩ := h
    simp only [searchSteps]
    omega
  | succ k ih => exact ih (searchStep_brackets h)

theorem bsearch_symbol (rom : Alphabet) (g : Group) : bsearch rom (symbol rom g) = some g := by
  have hlo : (searchSteps rom (symbol rom g) 10 { lo := 0, hi := alphaN }).lo = g.toNat :=
    searchSteps_lo ⟨Nat.zero_le _, g.isLt, rfl, le_rfl⟩
  simp [bsearch, hlo]

theorem bsearch_eq_some_iff {rom : Alphabet} {s : Word} {g : Group} : bsearch rom s = some g ↔ symbol rom g = s :=
  ⟨bsearch_sound, fun h => h ▸ bsearch_symbol rom g⟩

theorem bsearch_eq_none_iff {rom : Alphabet} {s : Word} : bsearch rom s = none ↔ ∀ g, symbol rom g ≠ s := by
  simp [Option.eq_none_iff_forall_ne_some, bsearch_eq_some_iff]

/-- Settles O44: both searches find exactly the group whose symbol is the word. -/
theorem binarySearchIsLookup : Obligations.BinarySearchIsLookup := fun _ _ =>
  Option.ext fun _ => bsearch_eq_some_iff.trans lookup_eq_some_iff.symm

/-- Settles O45: the lookup finds a group exactly when the group's symbol is the word. -/
theorem alphabetIsBijective : Obligations.AlphabetIsBijective := fun _ =>
  ⟨fun _ => lookup_eq_some_iff.mpr rfl, fun _ _ => lookup_eq_some_iff.mp⟩

/-! ## The commands that map their input item by item (R104, R105) -/

/-- A command that maps each of its N input words completes: N entries, entry i from input i. -/
theorem State.withInput_map {s : State} (f : Word → Word) (h : Written s.ibuf s.ilen.toNat) :
    ∃ t, s.withInput s.ilen.toNat (fun ws => s.finishOk (ws.map f)) = .next t ∧ t.code = .ok ∧ t.pend = none ∧
      t.olen = s.ilen ∧ ∀ i, i < s.ilen.toNat → t.obuf.read i = some (f (s.ibuf.word i)) := by
  refine ⟨_, State.withInput_written _ h, rfl, rfl, by simp, fun i hi => ?_⟩
  rw [State.finishOk_read, if_pos (by simpa using hi)]
  simp [State.inputs, hi]

theorem groupItem_toNat (w : Word) : (groupItem w).toNat = w.toNat % 1024 := by simp [groupItem]

/-- The ROM entry of a group item, at the item's bits 9:0 (R74, R100). -/
theorem entries_getElem?_groupItem (rom : Alphabet) (w : Word) :
    rom.entries[w.toNat % 1024]? = some (symbol rom (groupItem w)) := by
  rw [← groupItem_toNat]
  exact List.getElem?_eq_getElem _

/-- Settles O16: SYM_AT maps each input word to the symbol of its group item. -/
theorem symAtResult : Obligations.SymAtResult := by
  intro s hn hw
  simp only [entries_getElem?_groupItem]
  have hrun : exec .symAt s = _ := symAt_run hn
  rw [hrun]
  exact State.withInput_map _ hw

/-- Settles O17: INDEX_OF maps each input word to the lookup entry of its search, which hits or misses. -/
theorem indexOfResult : Obligations.IndexOfResult := by
  intro s hn hw
  have hrun : exec .indexOf s = _ := indexOf_run hn
  obtain ⟨t, ht, hcode, hpend, holen, hout⟩ := State.withInput_map (fun w => lookupWord (bsearch s.rom w)) hw
  refine ⟨t, hrun.trans ht, hcode, hpend, holen, fun i hi => ⟨fun g hhit => ?_, fun hmiss => ?_⟩⟩
  · rw [hout i hi, bsearch_eq_some_iff.mpr hhit, BitVec.ofNat_toNat]
    rfl
  · rw [hout i hi, bsearch_eq_none_iff.mpr hmiss]
    rfl

end Sys2Proof.Machine

/-! # Proofs for 41_bitpacker.md: what packing and unpacking make of the bit stream, the accumulator machines, the padding
flag, and the commands PACK and UNPACK -/

namespace Sys2Proof.Machine

/-! ## Bit streams of items (00_scope.md R8) -/

@[simp] theorem bytesToBits_append (bs cs : List Byte) : bytesToBits (bs ++ cs) = bytesToBits bs ++ bytesToBits cs :=
  List.flatMap_append

@[simp] theorem groupsToBits_append (gs hs : List Group) :
    groupsToBits (gs ++ hs) = groupsToBits gs ++ groupsToBits hs :=
  List.flatMap_append

/-- Items of one positive width can be read back from their bits. -/
theorem flatMap_bitsOf_injective {w : Nat} (hw : 0 < w) :
    Function.Injective fun xs : List (BitVec w) => xs.flatMap bitsOf := by
  have hne (v : BitVec w) : bitsOf v ≠ [] := List.ne_nil_of_length_pos (by rwa [bitsOf_length])
  intro xs ys h
  induction xs generalizing ys with
  | nil =>
    cases ys with
    | nil => rfl
    | cons y ys => simp [hne] at h
  | cons x xs ih =>
    cases ys with
    | nil => simp [hne] at h
    | cons y ys =>
      simp only [List.flatMap_cons] at h
      obtain ⟨hhead, htail⟩ := List.append_inj h (by simp)
      rw [bitsOf_injective hhead, ih htail]

theorem bytesToBits_injective : Function.Injective bytesToBits := flatMap_bitsOf_injective (by decide)

theorem groupsToBits_injective : Function.Injective groupsToBits := flatMap_bitsOf_injective (by decide)

theorem bytesToBits_take (bs : List Byte) (m : Nat) : bytesToBits (bs.take m) = (bytesToBits bs).take (8 * m) := by
  by_cases hm : m ≤ bs.length
  · have hlen : (bytesToBits (bs.take m)).length = 8 * m := by simp [hm]
    conv_rhs => rw [← List.take_append_drop m bs, bytesToBits_append, List.take_left' hlen]
  · rw [List.take_of_length_le (by omega), List.take_of_length_le (by simp; omega)]

/-! ## The contracts of the packing functions (R120, R123) -/

/-- The groups of pack are the bits of the bytes, then zeros up to a whole group. -/
theorem groupsToBits_pack (bs : List Byte) :
    groupsToBits (pack bs) = bytesToBits bs ++ List.replicate (10 * (pack bs).length - 8 * bs.length) false := by
  have hk : (pack bs).length = (8 * bs.length + 9) / 10 := chunks_length ..
  rw [hk]
  refine (flatMap_bitsOf_chunks ?_).trans (List.take_of_length_le ?_) <;>
    simp only [List.length_append, List.length_replicate, bytesToBits_length] <;> omega

/-- The bytes of unpack_raw are the bits of the groups, as far as they make whole bytes. -/
theorem bytesToBits_unpackRaw (gs : List Group) :
    bytesToBits (unpackRaw gs) = (groupsToBits gs).take (10 * gs.length - 10 * gs.length % 8) := by
  have hwhole : 8 * (10 * gs.length / 8) = 10 * gs.length - 10 * gs.length % 8 := by omega
  rw [← hwhole]
  exact flatMap_bitsOf_chunks (by simp only [groupsToBits_length]; omega)

/-- Settles O46. -/
theorem packReproducesTheBitStream : Obligations.PackReproducesTheBitStream := fun bs =>
  ⟨groupsToBits_pack bs, pack_length bs⟩

/-- Settles O47. -/
theorem unpackRawReproducesTheBitStream : Obligations.UnpackRawReproducesTheBitStream := fun gs =>
  ⟨bytesToBits_unpackRaw gs, unpackRaw_length gs⟩

/-- Groups that carry the bits of the bytes and less than a group of zeros are those of pack. -/
theorem eq_pack_of_groupsToBits {gs : List Group} {bs : List Byte} {p : Nat} (hp : p < 10)
    (h : groupsToBits gs = bytesToBits bs ++ List.replicate p false) : gs = pack bs := by
  have hlen := congrArg List.length h
  simp only [groupsToBits_length, List.length_append, bytesToBits_length, List.length_replicate] at hlen
  have hpad : 10 * (pack bs).length - 8 * bs.length = p := by
    rw [pack_length, groupsFor]
    omega
  exact groupsToBits_injective (by rw [h, groupsToBits_pack, hpad])

/-- Bytes that carry the bits of the groups but for less than a byte are those of unpack_raw. -/
theorem eq_unpackRaw_of_bytesToBits {gs : List Group} {bs : List Byte} {tail : List Bool} (ht : tail.length < 8)
    (h : groupsToBits gs = bytesToBits bs ++ tail) : bs = unpackRaw gs := by
  have hlen := congrArg List.length h
  simp only [groupsToBits_length, List.length_append, bytesToBits_length] at hlen
  refine bytesToBits_injective ?_
  rw [bytesToBits_unpackRaw, h, List.take_left' (by rw [bytesToBits_length]; omega)]

/-- The bits of the groups are those of unpack_raw and less than a byte more (R123). -/
theorem groupsToBits_eq_unpackRaw_append (gs : List Group) :
    ∃ tail : List Bool, tail.length = 10 * gs.length % 8 ∧ groupsToBits gs = bytesToBits (unpackRaw gs) ++ tail := by
  refine ⟨(groupsToBits gs).drop (10 * gs.length - 10 * gs.length % 8), ?_, ?_⟩
  · simp only [List.length_drop, groupsToBits_length]
    omega
  · rw [bytesToBits_unpackRaw, List.take_append_drop]

/-! ## Window by window (R122, R125) -/

/-- Whole windows of bytes are packed without padding. -/
theorem groupsToBits_pack_aligned {ws : List Byte} (h : ws.length % 5 = 0) :
    groupsToBits (pack ws) = bytesToBits ws := by
  have hpad : 10 * (pack ws).length - 8 * ws.length = 0 := by
    rw [pack_length, groupsFor]
    omega
  rw [groupsToBits_pack, hpad, List.replicate_zero, List.append_nil]

theorem pack_append {ws : List Byte} (bs : List Byte) (h : ws.length % 5 = 0) :
    pack (ws ++ bs) = pack ws ++ pack bs := by
  have hpad : 10 * (pack bs).length - 8 * bs.length < 10 := by
    rw [pack_length, groupsFor]
    omega
  refine (eq_pack_of_groupsToBits hpad ?_).symm
  rw [groupsToBits_append, groupsToBits_pack_aligned h, groupsToBits_pack, bytesToBits_append, List.append_assoc]

/-- Whole windows of groups are unpacked without tail bits. -/
theorem bytesToBits_unpackRaw_aligned {us : List Group} (h : us.length % 4 = 0) :
    bytesToBits (unpackRaw us) = groupsToBits us := by
  rw [bytesToBits_unpackRaw, List.take_of_length_le (by rw [groupsToBits_length]; omega)]

theorem unpackRaw_append {us : List Group} (gs : List Group) (h : us.length % 4 = 0) :
    unpackRaw (us ++ gs) = unpackRaw us ++ unpackRaw gs := by
  obtain ⟨tail, htail, hbits⟩ := groupsToBits_eq_unpackRaw_append gs
  refine (eq_unpackRaw_of_bytesToBits (tail := tail) (by omega) ?_).symm
  rw [groupsToBits_append, hbits, bytesToBits_append, bytesToBits_unpackRaw_aligned h, List.append_assoc]

/-- Settles O49: whole windows leave no padding and no tail bits, so the rest of the stream is packed as on its own. -/
theorem packerWorksWindowByWindow : Obligations.PackerWorksWindowByWindow :=
  ⟨fun _ bs h => pack_append bs h, fun _ gs h => unpackRaw_append gs h⟩

/-! ## The low bits of the accumulator (10_state.md R31) -/

/-- The low n bits of a word, most significant bit first. -/
def lowBits {w : Nat} (n : Nat) (v : BitVec w) : List Bool := bitsOf (v.setWidth n)

@[simp] theorem lowBits_zero {w : Nat} (v : BitVec w) : lowBits 0 v = [] := rfl

theorem bitsOf_append {m k : Nat} (x : BitVec m) (y : BitVec k) : bitsOf (x ++ y) = bitsOf x ++ bitsOf y := by
  refine List.ext_getElem (by simp) fun i hi hi' => ?_
  simp only [bitsOf, List.getElem_append, List.getElem_map, List.getElem_range, List.length_map, List.length_range,
    BitVec.getMsbD_append]
  by_cases him : i < m <;> simp [him]

theorem bitsOf_zero (n : Nat) : bitsOf (0#n) = List.replicate n false := by
  refine List.ext_getElem (by simp) fun i hi hi' => ?_
  simp [bitsOf, BitVec.getMsbD]

/-- The low m + k bits: those above the lowest k, then the lowest k. -/
theorem lowBits_add {w : Nat} (m k : Nat) (v : BitVec w) :
    lowBits (m + k) v = lowBits m (v >>> k) ++ lowBits k v := by
  have hsplit : v.setWidth (m + k) = (v >>> k).setWidth m ++ v.setWidth k := by
    refine BitVec.eq_of_getLsbD_eq fun i hi => ?_
    by_cases hik : i < k
    · simpa [BitVec.getLsbD_append, hik] using fun _ => hi
    · have hback : k + (i - k) = i := by omega
      have him : i - k < m := by omega
      simpa [BitVec.getLsbD_append, hik, hback, him] using fun _ => hi
  rw [lowBits, hsplit, bitsOf_append, lowBits, lowBits]

/-- Masking ACC to NB bits keeps the valid ones. -/
theorem lowBits_keepBits (acc : BitVec 16) (n : Nat) : lowBits n (keepBits acc n) = lowBits n acc := by
  have hmod : (keepBits acc n).setWidth n = acc.setWidth n := by
    apply BitVec.eq_of_toNat_eq
    have hfit : acc.toNat % 2 ^ n < 2 ^ 16 := (Nat.mod_le _ _).trans_lt acc.isLt
    rw [BitVec.toNat_setWidth, keepBits, BitVec.toNat_ofNat, Nat.mod_eq_of_lt hfit, Nat.mod_mod, BitVec.toNat_setWidth]
  rw [lowBits, hmod, lowBits]

/-- Shifting k bits into ACC appends them to the valid ones, where they all fit. -/
theorem lowBits_shiftIn {nb k : Nat} (acc : BitVec 16) (x : BitVec k) (h : nb + k ≤ 16) :
    lowBits (nb + k) ((acc <<< k) ||| x.setWidth 16) = lowBits nb acc ++ bitsOf x := by
  have hold : (((acc <<< k) ||| x.setWidth 16) >>> k).setWidth nb = acc.setWidth nb := by
    refine BitVec.eq_of_getLsbD_eq fun i hi => ?_
    have h16 : k + i < 16 := by omega
    simp [h16, hi, BitVec.getLsbD_eq_getElem (show i < 16 by omega)]
  have hnew : ((acc <<< k) ||| x.setWidth 16).setWidth k = x := by
    refine BitVec.eq_of_getLsbD_eq fun i hi => ?_
    have h16 : i < 16 := by omega
    simp [h16, hi]
  rw [lowBits_add, lowBits, hold, lowBits, hnew, lowBits]

/-! ## The accumulator machines (R128 to R130) -/

/-- The bits that the machine has taken in and not put out: the low NB bits of ACC. -/
def PackRegs.bits (r : PackRegs) : List Bool := lowBits r.nb r.acc

/-- What both machines keep between two items: an even number of pending bits, fewer than one output item of w bits.
Evenness is what keeps the next item within ACC's 16 bits. -/
structure PackRegs.Pending (w : Nat) (r : PackRegs) : Prop where
  lt : r.nb < w
  even : r.nb % 2 = 0

/-- ACC with a byte shifted in (R128). -/
def PackRegs.takeByte (r : PackRegs) (b : Byte) : BitVec 16 := (r.acc <<< 8) ||| b.setWidth 16

theorem packStep_full {r : PackRegs} {b : Byte} (h : 10 ≤ r.nb + 8) :
    packStep r b = ({ acc := keepBits (r.takeByte b) (r.nb + 8 - 10), nb := r.nb + 8 - 10 },
      [(r.takeByte b >>> (r.nb + 8 - 10)).setWidth 10]) :=
  if_pos h

theorem packStep_short {r : PackRegs} {b : Byte} (h : ¬ 10 ≤ r.nb + 8) :
    packStep r b = ({ acc := keepBits (r.takeByte b) (r.nb + 8), nb := r.nb + 8 }, []) :=
  if_neg h

theorem packStep_bits {r : PackRegs} (b : Byte) (h : r.Pending 10) :
    groupsToBits (packStep r b).2 ++ (packStep r b).1.bits = r.bits ++ bitsOf b := by
  obtain ⟨hlt, heven⟩ := h
  have hin : lowBits (r.nb + 8) (r.takeByte b) = r.bits ++ bitsOf b := lowBits_shiftIn r.acc b (by omega)
  by_cases hfull : 10 ≤ r.nb + 8
  · have hnb : r.nb + 8 = 10 + (r.nb + 8 - 10) := by omega
    rw [hnb, lowBits_add] at hin
    rw [packStep_full hfull, PackRegs.bits, lowBits_keepBits]
    simpa [lowBits] using hin
  · rw [packStep_short hfull, PackRegs.bits, lowBits_keepBits]
    exact hin

theorem packStep_pending {r : PackRegs} (b : Byte) (h : r.Pending 10) : (packStep r b).1.Pending 10 := by
  obtain ⟨hlt, heven⟩ := h
  by_cases hfull : 10 ≤ r.nb + 8
  · rw [packStep_full hfull]
    constructor <;> simp only <;> omega
  · rw [packStep_short hfull]
    constructor <;> simp only <;> omega

/-- The PACK machine puts out its pending bits, then those of the bytes, then zeros in the flushed group. -/
theorem packLoop_bits {r : PackRegs} (bs : List Byte) (h : r.Pending 10) :
    ∃ p, p < 10 ∧ groupsToBits (packLoop r bs) = r.bits ++ bytesToBits bs ++ List.replicate p false := by
  induction bs generalizing r with
  | nil =>
    obtain ⟨hlt, -⟩ := h
    unfold packLoop
    split
    · have hflush := lowBits_shiftIn (nb := r.nb) (k := 10 - r.nb) r.acc 0#_ (by omega)
      have hnb : r.nb + (10 - r.nb) = 10 := by omega
      refine ⟨10 - r.nb, by omega, ?_⟩
      rw [hnb, bitsOf_zero] at hflush
      simpa [PackRegs.bits, lowBits] using hflush
    · have hnb : r.nb = 0 := by omega
      exact ⟨0, by omega, by simp [PackRegs.bits, hnb]⟩
  | cons b bs ih =>
    obtain ⟨p, hp, hloop⟩ := ih (packStep_pending b h)
    refine ⟨p, hp, ?_⟩
    calc groupsToBits (packLoop r (b :: bs))
        = (groupsToBits (packStep r b).2 ++ (packStep r b).1.bits) ++ bytesToBits bs ++ List.replicate p false := by
          simp [packLoop, hloop]
      _ = r.bits ++ bytesToBits (b :: bs) ++ List.replicate p false := by
          simp [packStep_bits b h]

/-- The inner loop puts out the upper of the valid bits and leaves the others. -/
theorem emitBytes_bits (acc : BitVec 16) (fuel nb : Nat) :
    bytesToBits (emitBytes acc fuel nb).1 ++ lowBits (emitBytes acc fuel nb).2 acc = lowBits nb acc := by
  induction fuel generalizing nb with
  | zero => rfl
  | succ fuel ih =>
    unfold emitBytes
    split
    · have hnb : nb = 8 + (nb - 8) := by omega
      conv_rhs => rw [hnb, lowBits_add, ← ih (nb - 8)]
      simp [lowBits]
    · rfl

/-- With fuel enough the inner loop ends where no whole byte is left. -/
theorem emitBytes_snd (acc : BitVec 16) {fuel nb : Nat} (h : nb < 8 * (fuel + 1)) :
    (emitBytes acc fuel nb).2 = nb % 8 := by
  induction fuel generalizing nb with
  | zero => exact (Nat.mod_eq_of_lt h).symm
  | succ fuel ih =>
    unfold emitBytes
    split
    · simp only [ih (nb := nb - 8) (by omega)]
      omega
    · exact (Nat.mod_eq_of_lt (by omega)).symm

theorem unpackStep_bits {r : PackRegs} (g : Group) (h : r.Pending 8) :
    bytesToBits (unpackStep r g).2 ++ (unpackStep r g).1.bits = r.bits ++ bitsOf g := by
  obtain ⟨hlt, heven⟩ := h
  simp only [unpackStep, PackRegs.bits, lowBits_keepBits, emitBytes_bits]
  exact lowBits_shiftIn r.acc g (by omega)

theorem unpackStep_pending {r : PackRegs} (g : Group) (h : r.Pending 8) : (unpackStep r g).1.Pending 8 := by
  obtain ⟨hlt, heven⟩ := h
  have hnb : (unpackStep r g).1.nb = (r.nb + 10) % 8 := emitBytes_snd _ (by omega)
  exact ⟨by omega, by omega⟩

/-- The UNPACK machine puts out its pending bits and those of the groups, but for less than a byte. -/
theorem unpackLoop_bits {r : PackRegs} (gs : List Group) (h : r.Pending 8) :
    ∃ tail : List Bool, tail.length < 8 ∧ r.bits ++ groupsToBits gs = bytesToBits (unpackLoop r gs) ++ tail := by
  induction gs generalizing r with
  | nil => exact ⟨r.bits, by simpa [PackRegs.bits, lowBits] using h.lt, by simp [unpackLoop]⟩
  | cons g gs ih =>
    obtain ⟨tail, htail, hloop⟩ := ih (unpackStep_pending g h)
    refine ⟨tail, htail, ?_⟩
    calc r.bits ++ groupsToBits (g :: gs)
        = bytesToBits (unpackStep r g).2 ++ ((unpackStep r g).1.bits ++ groupsToBits gs) := by
          rw [groupsToBits_cons, ← List.append_assoc, ← unpackStep_bits g h, List.append_assoc]
      _ = bytesToBits (unpackLoop r (g :: gs)) ++ tail := by
          rw [hloop, unpackLoop, bytesToBits_append, List.append_assoc]

/-- Settles O50: both machines put out the bits that they take in (`packLoop_bits`, `unpackLoop_bits`), and those bits
determine the items. -/
theorem referenceMachinesEqualThePackingFunctions : Obligations.ReferenceMachinesEqualThePackingFunctions := by
  constructor
  · intro bs
    obtain ⟨p, hp, hbits⟩ := packLoop_bits (r := { acc := 0#16, nb := 0 }) bs ⟨by decide, rfl⟩
    exact eq_pack_of_groupsToBits hp hbits
  · intro gs
    obtain ⟨tail, htail, hbits⟩ := unpackLoop_bits (r := { acc := 0#16, nb := 0 }) gs ⟨by decide, rfl⟩
    exact eq_unpackRaw_of_bytesToBits htail hbits

/-! ## The padding flag (R126) -/

section Flag

variable (p : FlagPolicy) (gs : List Group)

theorem unpack_false : unpack p gs false = unpackRaw gs := rfl

theorem dropLast_unpackRaw : (unpackRaw gs).dropLast = (unpackRaw gs).take (5 * gs.length / 4 - 1) := by
  rw [List.dropLast_eq_take, unpackRaw_length, bytesIn]

/-- Flag 1 drops the last byte, if there is one, at an aligned bit count or under DROP_LAST. -/
theorem unpack_true_drops (h : 10 * gs.length % 8 = 0 ∨ p = .dropLast) :
    unpack p gs true = (unpackRaw gs).take (5 * gs.length / 4 - 1) := by
  rw [← dropLast_unpackRaw, unpack]
  unfold resolve
  rw [if_neg (by decide)]
  split
  · rename_i hempty
    rw [List.length_eq_zero_iff.mp hempty, List.dropLast_nil]
  · obtain haligned | rfl := h
    · rw [if_pos haligned]
    · exact ite_self _

theorem unpack_true_keeps (h : 10 * gs.length % 8 ≠ 0) : unpack .dropIfAligned gs true = unpackRaw gs := by
  rw [unpack]
  unfold resolve
  rw [if_neg (by decide), if_neg h, ite_self]

end Flag

/-- Settles O52. -/
theorem remainderResolution : Obligations.RemainderResolution := fun p gs =>
  ⟨unpack_false p gs, unpack_true_drops p [] (.inl rfl), fun h => unpack_true_drops p gs (.inl h),
    unpack_true_drops .dropLast gs (.inr rfl), unpack_true_keeps gs⟩

/-! ## The bits that unpack drops (R127) -/

/-- Two words that agree above their low t bits have the same bits there. -/
theorem take_bitsOf_congr {w t n : Nat} {v v' : BitVec w} (h : v.toNat / 2 ^ t = v'.toNat / 2 ^ t) (hn : n + t ≤ w) :
    (bitsOf v).take n = (bitsOf v').take n := by
  refine List.ext_getElem (by simp) fun i hi hi' => ?_
  have hin : i < n := by simp at hi; omega
  have hpos : w - 1 - i = t + (w - 1 - i - t) := by omega
  have hbit := congrArg (Nat.testBit · (w - 1 - i - t)) h
  simp only [Nat.testBit_div_two_pow] at hbit
  rw [Nat.add_comm _ t, ← hpos] at hbit
  simp [bitsOf, BitVec.getMsbD_eq_getLsbD, BitVec.getLsbD, hbit]

/-- The first m bytes do not depend on the low t bits of the last group when they end above those. -/
theorem take_unpackRaw_congr {gs : List Group} {g g' : Group} {t m : Nat} (h : g.toNat / 2 ^ t = g'.toNat / 2 ^ t)
    (ht : t ≤ 10) (hm : 8 * m + t ≤ 10 * (gs.length + 1)) :
    (unpackRaw (gs ++ [g])).take m = (unpackRaw (gs ++ [g'])).take m := by
  refine bytesToBits_injective ?_
  have hbits (x : Group) : bytesToBits ((unpackRaw (gs ++ [x])).take m) =
      (groupsToBits gs).take (8 * m) ++ (bitsOf x).take (8 * m - 10 * gs.length) := by
    have hwhole : 8 * m ≤ 10 * (gs ++ [x]).length - 10 * (gs ++ [x]).length % 8 := by
      rw [List.length_append, List.length_singleton]
      omega
    rw [bytesToBits_take, bytesToBits_unpackRaw, List.take_take, min_eq_left hwhole]
    simp [List.take_append]
  rw [hbits, hbits, take_bitsOf_congr h (by omega)]

/-- Settles O53: what unpack keeps ends above the bits in which the two groups may differ. -/
theorem droppedBitsAreNotChecked : Obligations.DroppedBitsAreNotChecked := by
  intro p gs g g' f
  constructor
  · intro h
    have hraw : unpackRaw (gs ++ [g]) = unpackRaw (gs ++ [g']) := by
      have hlen (x : Group) : (unpackRaw (gs ++ [x])).length = 5 * (gs.length + 1) / 4 := by
        simp [bytesIn]
      have htake := take_unpackRaw_congr (gs := gs) (m := 5 * (gs.length + 1) / 4) h (by omega) (by omega)
      rwa [List.take_of_length_le (hlen g).le, List.take_of_length_le (hlen g').le] at htake
    simp only [unpack, hraw, List.length_append, List.length_singleton]
  · intro haligned h
    have hbits (x : Group) : 10 * (gs ++ [x]).length % 8 = 0 := by simp; omega
    rw [unpack_true_drops p _ (.inl (hbits g)), unpack_true_drops p _ (.inl (hbits g'))]
    simp only [List.length_append, List.length_singleton]
    exact take_unpackRaw_congr (t := 8) h (by decide) (by omega)

/-! ## Round trip (R131) -/

theorem unpackRaw_pack (bs : List Byte) :
    unpackRaw (pack bs) = if bs.length % 5 = 4 then bs ++ [0x00#8] else bs := by
  have hbits := groupsToBits_pack bs
  rw [pack_length, groupsFor] at hbits
  split
  · rename_i h4
    have hpad : 10 * ((4 * bs.length + 4) / 5) - 8 * bs.length = 8 := by omega
    rw [hpad, ← bitsOf_zero] at hbits
    exact (eq_unpackRaw_of_bytesToBits (tail := []) (by decide) (by simpa using hbits)).symm
  · exact (eq_unpackRaw_of_bytesToBits (by rw [List.length_replicate]; omega) hbits).symm

/-- The padding flag of a length (43_codec.md R170). -/
theorem flagOf_eq (n : Nat) : flagOf n = decide (n % 5 = 4) := by
  rw [flagOf, ← Bool.decide_or]
  exact decide_eq_decide.mpr (by omega)

/-- Settles O51: flag 1 is set exactly where the padding makes one more byte, and then the bit count is aligned. -/
theorem packerRoundTrip : Obligations.PackerRoundTrip := by
  intro bs
  refine ⟨unpackRaw_pack bs, fun p => ?_⟩
  by_cases h4 : bs.length % 5 = 4
  · have haligned : 10 * (pack bs).length % 8 = 0 := by
      rw [pack_length, groupsFor]
      omega
    rw [flagOf_eq, decide_eq_true h4, unpack_true_drops p _ (.inl haligned), ← dropLast_unpackRaw, unpackRaw_pack,
      if_pos h4, List.dropLast_concat]
  · rw [flagOf_eq, decide_eq_false h4, unpack_false, unpackRaw_pack, if_neg h4]

/-! ## The commands PACK and UNPACK (R132, R133) -/

theorem State.finishOk_holds (s : State) (out : List Word) : (s.finishOk out).obuf.holds out := by
  intro j hj
  rw [State.finishOk_read, if_pos hj, List.getElem?_eq_getElem hj]

theorem byteItem_eq (w : Word) : byteItem w = BitVec.ofNat 8 w.toNat := rfl

theorem groupItem_eq (w : Word) : groupItem w = BitVec.ofNat 10 w.toNat := rfl

theorem byteWord_eq (b : Byte) : byteWord b = BitVec.ofNat 32 b.toNat := (BitVec.ofNat_toNat ..).symm

theorem groupWord_eq (g : Group) : groupWord g = BitVec.ofNat 32 g.toNat := (BitVec.ofNat_toNat ..).symm

/-- A command that stores `f` of its N input words completes: OLEN.N counts the words of the output, and OBUF begins with
them (60_exceptions.md R204). -/
theorem State.withInput_finishes {s : State} {n : Nat} (f : List Word → List Word) (hw : Written s.ibuf n)
    (hfit : (f (s.inputs n)).length ≤ 32768) :
    ∃ t, s.withInput n (fun ws => s.finishOk (f ws)) = .next t ∧ t.code = .ok ∧ t.pend = none ∧
      t.olen.toNat = (f (s.inputs n)).length ∧ t.obuf.holds (f (s.inputs n)) :=
  ⟨_, State.withInput_written _ hw, rfl, rfl, olen_toNat hfit, State.finishOk_holds s _⟩

/-- Settles O18: the output is the words of the groups that the input bytes pack to. -/
theorem packResult : Obligations.PackResult := by
  intro s hn hw
  simp only [← byteItem_eq, ← groupWord_eq]
  have hrun : exec .pack s = _ := packCmd_run hn
  have hlen : ((pack ((s.inputs s.ilen.toNat).map byteItem)).map groupWord).length = groupsFor s.ilen.toNat := by simp
  rw [Config.block_ibufDepth] at hn
  obtain ⟨t, ht, hcode, hpend, holen, hout⟩ :=
    State.withInput_finishes (fun ws => (pack (ws.map byteItem)).map groupWord) hw
      (by rw [hlen, groupsFor]; omega)
  exact ⟨t, hrun.trans ht, hcode, hpend, holen.trans hlen, hout⟩

/-- UNPACK at DROP_LAST gives the bytes of unpack_raw, one fewer with flag 1. -/
theorem unpack_dropLast (gs : List Group) (f : Bool) :
    unpack .dropLast gs f = (unpackRaw gs).take (5 * gs.length / 4 - if f then 1 else 0) := by
  cases f with
  | false => exact (List.take_of_length_le (unpackRaw_length gs).le).symm
  | true => exact unpack_true_drops .dropLast gs (.inr rfl)

theorem unpack_dropLast_length (gs : List Group) (f : Bool) :
    (unpack .dropLast gs f).length = 5 * gs.length / 4 - if f then 1 else 0 := by
  rw [unpack_dropLast, List.length_take, unpackRaw_length, bytesIn]
  exact min_eq_left (Nat.sub_le _ _)

/-- Settles O19: the block's policy is DROP_LAST, and its output is the bytes that `unpack_dropLast` names. -/
theorem unpackResult : Obligations.UnpackResult := by
  intro s hn hw
  simp only [← groupItem_eq, ← byteWord_eq]
  have hrun : exec .unpack s = _ := unpackCmd_run hn
  have hlen : ((unpack .dropLast ((s.inputs s.ilen.toNat).map groupItem) s.flag).map byteWord).length =
      5 * s.ilen.toNat / 4 - if s.flag then 1 else 0 := by simp [unpack_dropLast_length]
  rw [Config.block_ibufDepth] at hn
  obtain ⟨t, ht, hcode, hpend, holen, hout⟩ :=
    State.withInput_finishes (fun ws => (unpack .dropLast (ws.map groupItem) s.flag).map byteWord) hw
      (by rw [hlen]; omega)
  rw [hlen] at holen
  simp only [unpack_dropLast, List.length_map, State.inputs_length, ← holen] at hout
  exact ⟨t, hrun.trans ht, hcode, hpend, holen, hout⟩

end Sys2Proof.Machine

/-! # Proofs for 42_header.md: the digest as a 40-bit number, the header functions, and the commands HDR_ENC and HDR_DEC -/

namespace Sys2Proof.Machine

/-! ## The digest as a number (R155) -/

/-- A field of a number's low m bits is a field of the number. -/
theorem extractLsb'_ofNat {m d w : Nat} (n : Nat) (h : d + w ≤ m) :
    (BitVec.ofNat m n).extractLsb' d w = BitVec.ofNat w (n / 2 ^ d) := by
  refine BitVec.eq_of_getLsbD_eq fun i hi => ?_
  have hin : d + i < m := by omega
  rw [BitVec.getLsbD_extractLsb', BitVec.getLsbD_ofNat, BitVec.getLsbD_ofNat, Nat.testBit_div_two_pow, Nat.add_comm i d]
  simp [hi, hin]

/-- The window table (30_encoding.md R78) over the fields of a number: the digest's bytes and the groups that carry it. -/
theorem window_ofNat (D : Nat) :
    pack [BitVec.ofNat 8 (D / 2 ^ 32), BitVec.ofNat 8 (D / 2 ^ 24), BitVec.ofNat 8 (D / 2 ^ 16),
        BitVec.ofNat 8 (D / 2 ^ 8), BitVec.ofNat 8 D] =
      [BitVec.ofNat 10 (D / 2 ^ 30), BitVec.ofNat 10 (D / 2 ^ 20), BitVec.ofNat 10 (D / 2 ^ 10), BitVec.ofNat 10 D] ∧
    unpackRaw [BitVec.ofNat 10 (D / 2 ^ 30), BitVec.ofNat 10 (D / 2 ^ 20), BitVec.ofNat 10 (D / 2 ^ 10), BitVec.ofNat 10 D] =
      [BitVec.ofNat 8 (D / 2 ^ 32), BitVec.ofNat 8 (D / 2 ^ 24), BitVec.ofNat 8 (D / 2 ^ 16),
        BitVec.ofNat 8 (D / 2 ^ 8), BitVec.ofNat 8 D] := by
  have h := windowTable (BitVec.ofNat 40 D)
  simpa (disch := decide) only [extractLsb'_ofNat, pow_zero, Nat.div_one] using h

/-- Five bytes pack to the ten-bit fields of the number that they write, the first most significant. -/
theorem pack_digest {b0 b1 b2 b3 b4 : Byte} {D : Nat}
    (hD : D = b0.toNat * 2 ^ 32 + b1.toNat * 2 ^ 24 + b2.toNat * 2 ^ 16 + b3.toNat * 2 ^ 8 + b4.toNat) :
    pack [b0, b1, b2, b3, b4] =
      [BitVec.ofNat 10 (D / 2 ^ 30), BitVec.ofNat 10 (D / 2 ^ 20), BitVec.ofNat 10 (D / 2 ^ 10), BitVec.ofNat 10 D] := by
  rw [← (window_ofNat D).1]
  congr 1
  simp only [List.cons.injEq, ← BitVec.toNat_inj, BitVec.toNat_ofNat, and_true]
  omega

/-- Four groups unpack to the eight-bit fields of the number that they write, the first most significant. -/
theorem unpackRaw_digest {g0 g1 g2 g3 : Group} {D : Nat}
    (hD : D = g0.toNat * 2 ^ 30 + g1.toNat * 2 ^ 20 + g2.toNat * 2 ^ 10 + g3.toNat) :
    unpackRaw [g0, g1, g2, g3] =
      [BitVec.ofNat 8 (D / 2 ^ 32), BitVec.ofNat 8 (D / 2 ^ 24), BitVec.ofNat 8 (D / 2 ^ 16),
        BitVec.ofNat 8 (D / 2 ^ 8), BitVec.ofNat 8 D] := by
  rw [← (window_ofNat D).2]
  congr 1
  simp only [List.cons.injEq, ← BitVec.toNat_inj, BitVec.toNat_ofNat, and_true]
  omega

/-! ## Looking up a sequence of symbols -/

theorem bsearchAll_map_symbol (rom : Alphabet) (gs : List Group) : bsearchAll rom (gs.map (symbol rom)) = some gs := by
  induction gs with
  | nil => rfl
  | cons g gs ih => simp only [List.map_cons, bsearchAll, bsearch_symbol, ih]

theorem bsearchAll_eq_none {rom : Alphabet} {ss : List Word} {w : Word} (hmem : w ∈ ss) (hw : ∀ g, symbol rom g ≠ w) :
    bsearchAll rom ss = none := by
  refine Option.eq_none_iff_forall_ne_some.mpr fun gs hgs => ?_
  rw [← bsearchAll_sound hgs] at hmem
  obtain ⟨g, -, hg⟩ := List.mem_map.mp hmem
  exact hw g hg

/-! ## The header functions (R150, R151, R154) -/

theorem flagOfGroup_flagGroup (f : Bool) : flagOfGroup (flagGroup f) = some f := by cases f <;> rfl

theorem flagOfGroup_eq_none {g : Group} (hg : 2 ≤ g.toNat) : flagOfGroup g = none := by
  have h0 : g ≠ 0#10 := by rintro rfl; exact absurd hg (by decide)
  have h1 : g ≠ 1#10 := by rintro rfl; exact absurd hg (by decide)
  rw [flagOfGroup, if_neg h0, if_neg h1]

section HdrDecode

variable {rom : Alphabet} {hs : List Group} {g : Group}

theorem hdrDecode_foreign {ss : List Word} {w : Word} (hmem : w ∈ ss) (hw : ∀ g, symbol rom g ≠ w) :
    hdrDecode rom ss = .error .invalidSymbol := by
  simp only [hdrDecode, bsearchAll_eq_none hmem hw]

variable (hlen : hs.length = 4)
include hlen

theorem headerFlag_append : headerFlag (hs ++ [g]) = flagOfGroup g := by
  simp only [headerFlag, hdrDigestSyms, List.drop_left' hlen]

theorem hdrDecode_flag (f : Bool) :
    hdrDecode rom ((hs ++ [flagGroup f]).map (symbol rom)) = .ok (unpackRaw hs, f) := by
  simp only [hdrDecode, bsearchAll_map_symbol, headerFlag_append hlen, flagOfGroup_flagGroup, hdrDigestSyms,
    List.take_left' hlen]

theorem hdrDecode_malformed (hg : 2 ≤ g.toNat) :
    hdrDecode rom ((hs ++ [g]).map (symbol rom)) = .error .malformedHeader := by
  simp only [hdrDecode, bsearchAll_map_symbol, headerFlag_append hlen, flagOfGroup_eq_none hg]

end HdrDecode

theorem hdrDecode_hdrEncode (rom : Alphabet) {d : List Byte} (f : Bool) (hd : d.length = 5) :
    hdrDecode rom ((hdrEncode d f).map (symbol rom)) = .ok (d, f) := by
  have hlen : (pack d).length = 4 := by rw [pack_length, hd]; rfl
  have hd4 : d.length % 5 ≠ 4 := by omega
  rw [hdrEncode, hdrDecode_flag hlen, unpackRaw_pack, if_neg hd4]

/-- Settles O55: a header's digest and flag are what it decodes to, so equal headers have equal ones. -/
theorem headerRoundTrip : Obligations.HeaderRoundTrip := by
  intro rom d f hd
  refine ⟨hdrDecode_hdrEncode rom f hd, fun d' f' hd' heq => ?_⟩
  have hdec := hdrDecode_hdrEncode rom f hd
  rw [heq, hdrDecode_hdrEncode rom f' hd'] at hdec
  cases hdec
  exact ⟨rfl, rfl⟩

/-! ## Five words in a buffer -/

theorem holds_five {m : Memory} {w0 w1 w2 w3 w4 : Word} :
    m.holds [w0, w1, w2, w3, w4] ↔
      m.read 0 = some w0 ∧ m.read 1 = some w1 ∧ m.read 2 = some w2 ∧ m.read 3 = some w3 ∧ m.read 4 = some w4 := by
  constructor
  · intro h
    exact ⟨h 0 (by simp), h 1 (by simp), h 2 (by simp), h 3 (by simp), h 4 (by simp)⟩
  · rintro ⟨h0, h1, h2, h3, h4⟩
    intro
    | 0, _ => exact h0
    | 1, _ => exact h1
    | 2, _ => exact h2
    | 3, _ => exact h3
    | 4, _ => exact h4

theorem State.inputs_five (s : State) :
    s.inputs 5 = [s.ibuf.word 0, s.ibuf.word 1, s.ibuf.word 2, s.ibuf.word 3, s.ibuf.word 4] := rfl

/-! ## The command HDR_ENC (R152) -/

theorem entries_getElem?_toNat (rom : Alphabet) (g : Group) : rom.entries[g.toNat]? = some (symbol rom g) :=
  List.getElem?_eq_getElem _

theorem entries_getElem?_mod (rom : Alphabet) (n : Nat) :
    rom.entries[n % 1024]? = some (symbol rom (BitVec.ofNat 10 n)) := by
  rw [← entries_getElem?_toNat, BitVec.toNat_ofNat]

theorem byteItem_toNat (w : Word) : (byteItem w).toNat = w.toNat % 256 := by simp [byteItem]

/-- Settles O20: the output is the digest's four groups and the flag's, each through the alphabet. -/
theorem hdrEncResult : Obligations.HdrEncResult := by
  intro s hn hw
  have hrun : exec .hdrEnc s = _ := hdrEncCmd_run (c := Config.block) hn
  have hlen : ((hdrEncode ((s.inputs 5).map byteItem) s.flag).map (symbol s.rom)).length = 5 := by
    simp [hdrEncode_length, groupsFor]
  obtain ⟨t, ht, hcode, hpend, holen, hout⟩ :=
    State.withInput_finishes (fun ws => (hdrEncode (ws.map byteItem) s.flag).map (symbol s.rom)) hw (by omega)
  refine ⟨t, hrun.trans ht, hcode, hpend, BitVec.eq_of_toNat_eq (holen.trans hlen), fun D hD => ?_⟩
  simp only [← byteItem_toNat] at hD
  simp only [State.inputs_five, List.map_cons, List.map_nil, hdrEncode, pack_digest hD, List.cons_append,
    List.nil_append] at hout
  have htop : D / 2 ^ 30 = D / 2 ^ 30 % 1024 := by omega
  have hflag : (if s.flag then 1 else 0) = (flagGroup s.flag).toNat := by cases s.flag <;> rfl
  rw [htop, hflag, entries_getElem?_toNat]
  simp only [entries_getElem?_mod]
  exact holds_five.mp hout

/-! ## The command HDR_DEC (R153) -/

theorem written_of_holds {m : Memory} {ws : List Word} (h : m.holds ws) : Written m ws.length := fun j hj => by
  rw [h j hj, Option.isSome_some]

theorem State.inputs_of_holds {s : State} {ws : List Word} (h : s.ibuf.holds ws) : s.inputs ws.length = ws := by
  refine List.ext_getElem (s.inputs_length _) fun j _ hj => ?_
  simp [State.inputs, Memory.word, h j hj]

theorem byteWord_ofNat (n : Nat) : byteWord (BitVec.ofNat 8 n) = BitVec.ofNat 32 (n % 256) := by
  rw [byteWord_eq, BitVec.toNat_ofNat]

section HdrDecCmd

variable {c : Config} {s : State} (hn : s.ilen.toNat ≤ c.ibufDepth) (h5 : 5 ≤ s.ilen.toNat) (hw : Written s.ibuf 5)
include hn h5 hw

/-- HDR_DEC of a legal header completes: OBUF begins with the digest's bytes, and FLAG.F is the header's. -/
theorem hdrDecCmd_finishes {d : List Byte} {f : Bool} (hd : hdrDecode s.rom (s.inputs 5) = .ok (d, f)) :
    ∃ t, hdrDecCmd c s = .next t ∧ t.code = .ok ∧ t.pend = none ∧ t.olen = BitVec.ofNat 16 d.length ∧ t.flag = f ∧
      t.obuf.holds (d.map byteWord) := by
  refine ⟨s.finishOkFlag (d.map byteWord) f, ?_, rfl, rfl, by simp, rfl, State.finishOk_holds s _⟩
  simp only [hdrDecCmd_run hn h5, State.withInput_written _ hw, hd]

theorem hdrDecCmd_error {e : CodecError} (he : hdrDecode s.rom (s.inputs 5) = .error e) :
    hdrDecCmd c s = .next (s.fail e.code) := by
  simp only [hdrDecCmd_run hn h5, State.withInput_written _ hw, he]

end HdrDecCmd

/-- Settles O21: the five words are the symbols of four digest groups and a flag, which decode to the digest's bytes and
that flag. -/
theorem hdrDecResult : Obligations.HdrDecResult := by
  intro s g0 g1 g2 g3 f h5 hn h0 h1 h2 h3 h4
  have hholds : s.ibuf.holds (([g0, g1, g2, g3] ++ [flagGroup f]).map (symbol s.rom)) :=
    holds_five.mpr ⟨h0, h1, h2, h3, h4⟩
  have hdec : hdrDecode s.rom (s.inputs 5) = .ok (unpackRaw [g0, g1, g2, g3], f) :=
    (congrArg (hdrDecode s.rom) (State.inputs_of_holds hholds)).trans (hdrDecode_flag rfl f)
  rw [unpackRaw_digest rfl] at hdec
  obtain ⟨t, ht, hcode, hpend, holen, hflag, hout⟩ := hdrDecCmd_finishes hn h5 (written_of_holds hholds) hdec
  simp only [List.map_cons, List.map_nil, byteWord_ofNat] at hout
  obtain ⟨r0, r1, r2, r3, r4⟩ := holds_five.mp hout
  refine ⟨t, ht, hcode, hpend, holen, hflag, ?_⟩
  intro
  | 0, _ => exact r0
  | 1, _ => exact r1
  | 2, _ => exact r2
  | 3, _ => exact r3
  | 4, _ => exact (Nat.div_one _).symm ▸ r4

/-- Settles O26: each failure is the path that the length, a foreign symbol or the flag index takes. -/
theorem hdrDecFailures : Obligations.HdrDecFailures := by
  intro s
  constructor
  · intro hshort
    exact hdrDecCmd_short (c := Config.block) (by rw [Config.block_ibufDepth]; omega) hshort
  · intro h5 hn hw
    constructor
    · rintro ⟨p, hp, hforeign⟩
      have hmem : s.ibuf.word p ∈ s.inputs 5 := List.mem_map_of_mem (List.mem_range.mpr hp)
      exact hdrDecCmd_error hn h5 hw (hdrDecode_foreign hmem hforeign)
    · rintro hdigest ⟨g, hg, h4⟩
      obtain ⟨g0, h0⟩ := hdigest 0 (by decide)
      obtain ⟨g1, h1⟩ := hdigest 1 (by decide)
      obtain ⟨g2, h2⟩ := hdigest 2 (by decide)
      obtain ⟨g3, h3⟩ := hdigest 3 (by decide)
      have hin : s.inputs 5 = ([g0, g1, g2, g3] ++ [g]).map (symbol s.rom) := by
        simp [State.inputs_five, h0, h1, h2, h3, h4]
      exact hdrDecCmd_error hn h5 hw (hin ▸ hdrDecode_malformed rfl hg)

end Sys2Proof.Machine

/-! # Proofs for 43_codec.md: the stream functions, what a changed symbol does to a decode, and the commands ENCODE and
DECODE -/

namespace Sys2Proof.Machine

/-! ## The padding flag of a length (R170) -/

/-- Settles O54: flag 1 is set at n mod 5 = 4 (`flagOf_eq`), and there the last group has 2 of the payload's bits. -/
theorem paddingFlagRule : Obligations.PaddingFlagRule := by
  intro n
  rw [flagOf_eq, decide_eq_true_eq]
  exact ⟨Iff.rfl, by omega⟩

theorem flagGroup_flagOf (n : Nat) : flagGroup (flagOf n) = if n % 5 = 4 then 1#10 else 0#10 := by
  simp [flagGroup, flagOf_eq]

/-! ## Decoding a stream (R180, R181) -/

section DecodeStream

variable {c : Config} {rom : Alphabet} {ss : List Word}

theorem decodeStream_headerError (h5 : 5 ≤ ss.length) {e : CodecError} (he : hdrDecode rom (ss.take 5) = .error e) :
    decodeStream c rom ss = .error e := by
  simp only [decodeStream, hdrLen, if_neg (Nat.not_lt.mpr h5), he]

theorem decodeStream_foreignPayload (h5 : 5 ≤ ss.length) {d : List Byte} {f : Bool}
    (hd : hdrDecode rom (ss.take 5) = .ok (d, f)) {w : Word} (hmem : w ∈ ss.drop 5) (hw : ∀ g, symbol rom g ≠ w) :
    decodeStream c rom ss = .error .invalidSymbol := by
  simp only [decodeStream, hdrLen, if_neg (Nat.not_lt.mpr h5), hd, bsearchAll_eq_none hmem hw]

variable {hs : List Group} (hlen : hs.length = 4)
include hlen

theorem symbols_length (g : Group) (gs : List Group) :
    ((hs ++ [g] ++ gs).map (symbol rom)).length = 5 + gs.length := by
  rw [List.length_map, List.length_append, List.length_append, hlen]
  rfl

theorem decodeStream_malformed {g : Group} (gs : List Group) (hg : 2 ≤ g.toNat) :
    decodeStream c rom ((hs ++ [g] ++ gs).map (symbol rom)) = .error .malformedHeader := by
  have hhdr : ((hs ++ [g]).map (symbol rom)).length = 5 := by simp [hlen]
  refine decodeStream_headerError (by rw [symbols_length hlen]; omega) ?_
  rw [List.map_append, List.take_left' hhdr, hdrDecode_malformed hlen hg]

/-- A stream of alphabet symbols with a legal flag decodes to what its payload unpacks to, when the header carries the
truncated hash of that. -/
theorem decodeStream_symbols (f : Bool) (gs : List Group) :
    decodeStream c rom ((hs ++ [flagGroup f] ++ gs).map (symbol rom)) =
      if hash5 c (unpack c.flagPolicy gs f) = unpackRaw hs then .ok (unpack c.flagPolicy gs f)
      else .error .checksumMismatch := by
  have hhdr : ((hs ++ [flagGroup f]).map (symbol rom)).length = 5 := by simp [hlen]
  have h5 : ¬ ((hs ++ [flagGroup f] ++ gs).map (symbol rom)).length < 5 := by
    rw [symbols_length hlen]
    omega
  rw [decodeStream, hdrLen, if_neg h5, List.map_append, List.take_left' hhdr, List.drop_left' hhdr]
  simp only [hdrDecode_flag hlen, bsearchAll_map_symbol]

end DecodeStream

/-! ## Encoding a stream (R172, R186) -/

section Encoding

variable (c : Config) (rom : Alphabet) (bs : List Byte)

theorem encodeStream_eq :
    encodeStream c bs = pack (hash5 c bs) ++ [flagGroup (flagOf bs.length)] ++ pack bs := rfl

theorem pack_hash5_length : (pack (hash5 c bs)).length = 4 := by simp [groupsFor]

theorem unpackRaw_pack_hash5 : unpackRaw (pack (hash5 c bs)) = hash5 c bs := by simp [unpackRaw_pack]

theorem take_encodeStream : (encodeStream c bs).take 5 = hdrEncode (hash5 c bs) (flagOf bs.length) :=
  List.take_left' (by simp [hdrEncode_length, groupsFor])

theorem encodeStream_set_digest {p : Nat} (hp : p < 4) (g : Group) :
    (encodeStream c bs).set p g = (pack (hash5 c bs)).set p g ++ [flagGroup (flagOf bs.length)] ++ pack bs := by
  have h4 := pack_hash5_length c bs
  rw [encodeStream_eq, List.append_assoc, List.set_append_left _ _ (by omega), ← List.append_assoc]

theorem encodeStream_set_flag (g : Group) :
    (encodeStream c bs).set 4 g = pack (hash5 c bs) ++ [g] ++ pack bs := by
  have h4 := pack_hash5_length c bs
  rw [encodeStream_eq, List.append_assoc, List.set_append_right _ _ (by omega), h4, List.append_assoc]
  rfl

theorem encodeStream_set_payload (q : Nat) (g : Group) :
    (encodeStream c bs).set (5 + q) g =
      pack (hash5 c bs) ++ [flagGroup (flagOf bs.length)] ++ (pack bs).set q g := by
  have h5 : (pack (hash5 c bs) ++ [flagGroup (flagOf bs.length)]).length = 5 := by simp [groupsFor]
  rw [encodeStream_eq, List.set_append_right _ _ (by omega), h5, Nat.add_sub_cancel_left]

theorem getElem?_encodeStream_digest {p : Nat} (hp : p < 4) :
    (encodeStream c bs)[p]? = (pack (hash5 c bs))[p]? := by
  have h4 := pack_hash5_length c bs
  rw [encodeStream_eq, List.append_assoc, List.getElem?_append_left (by omega)]

theorem getElem?_encodeStream_payload (q : Nat) : (encodeStream c bs)[5 + q]? = (pack bs)[q]? := by
  have h5 : (pack (hash5 c bs) ++ [flagGroup (flagOf bs.length)]).length = 5 := by simp [groupsFor]
  rw [encodeStream_eq, List.getElem?_append_right (by omega), h5, Nat.add_sub_cancel_left]

/-- Behind an encoding's digest, whatever the flag and the payload: the bytes recovered are held to the digest of `bs`. -/
theorem decodeStream_digestOf (f : Bool) (gs : List Group) :
    decodeStream c rom ((pack (hash5 c bs) ++ [flagGroup f] ++ gs).map (symbol rom)) =
      if hash5 c (unpack c.flagPolicy gs f) = hash5 c bs then .ok (unpack c.flagPolicy gs f)
      else .error .checksumMismatch := by
  rw [decodeStream_symbols (pack_hash5_length c bs), unpackRaw_pack_hash5]

theorem decodeStream_set_flag (f : Bool) :
    decodeStream c rom (((encodeStream c bs).set 4 (flagGroup f)).map (symbol rom)) =
      if hash5 c (unpack c.flagPolicy (pack bs) f) = hash5 c bs then .ok (unpack c.flagPolicy (pack bs) f)
      else .error .checksumMismatch := by
  rw [encodeStream_set_flag, decodeStream_digestOf]

theorem unpack_pack (p : FlagPolicy) : unpack p (pack bs) (flagOf bs.length) = bs := (packerRoundTrip bs).2 p

end Encoding

/-- Settles O56: the payload unpacks to the bytes (`unpack_pack`), and the header carries their digest. -/
theorem streamRoundTrip : Obligations.StreamRoundTrip := by
  intro c rom bs
  rw [encodeStream_eq, decodeStream_digestOf, unpack_pack, if_pos rfl]

/-! ## A changed symbol of an encoding (R188, R189) -/

/-- Settles O58: the foreign word stands among the header's symbols, or among the payload's after a legal header. -/
theorem foreignSymbolIsRejected : Obligations.ForeignSymbolIsRejected := by
  intro c rom bs p x hp hx
  rw [encodeStream_length, hdrLen] at hp
  have hlen : (((encodeStream c bs).map (symbol rom)).set p x).length = 5 + groupsFor bs.length := by
    rw [List.length_set, List.length_map, encodeStream_length]
  by_cases hheader : p < 5
  · have hmem : x ∈ (((encodeStream c bs).map (symbol rom)).set p x).take 5 := by
      rw [List.take_set]
      exact List.mem_set (by simp [encodeStream_length]; omega) x
    exact decodeStream_headerError (by omega) (hdrDecode_foreign hmem hx)
  · have hhdr : hdrDecode rom ((((encodeStream c bs).map (symbol rom)).set p x).take 5) =
        .ok (hash5 c bs, flagOf bs.length) := by
      rw [List.take_set_of_le (by omega), ← List.map_take, take_encodeStream,
        hdrDecode_hdrEncode rom _ (hash5_length c bs)]
    have hmem : x ∈ (((encodeStream c bs).map (symbol rom)).set p x).drop 5 := by
      rw [List.drop_set, if_neg hheader]
      exact List.mem_set (by simp [encodeStream_length]; omega) x
    exact decodeStream_foreignPayload (by omega) hhdr hmem hx

/-- Whole windows of groups can be read back from their bytes. -/
theorem unpackRaw_injOn_aligned {us vs : List Group} (hu : us.length % 4 = 0) (hv : vs.length % 4 = 0)
    (h : unpackRaw us = unpackRaw vs) : us = vs :=
  groupsToBits_injective <| by
    rw [← bytesToBits_unpackRaw_aligned hu, h, bytesToBits_unpackRaw_aligned hv]

theorem set_ne_self {α : Type} {l : List α} {p : Nat} {a : α} (hp : p < l.length) (h : l[p]? ≠ some a) :
    l.set p a ≠ l := fun he => h (by rw [← he, List.getElem?_set_self hp])

/-- Settles O59: the header decodes to another digest, to no flag, or to the other flag, and then the payload's bytes
and their digest decide. -/
theorem tamperedHeaderIsDetected : Obligations.TamperedHeaderIsDetected := by
  intro c rom bs
  have h4 := pack_hash5_length c bs
  refine ⟨fun p g hp hne => ?_, fun g hg => ?_, fun hn hcoll => ?_, fun hn hbs hpol hcoll => ?_, fun hk hpol => ?_⟩
  · have hdigest : hash5 c bs ≠ unpackRaw ((pack (hash5 c bs)).set p g) := by
      rw [getElem?_encodeStream_digest c bs hp] at hne
      intro heq
      have hraw := (unpackRaw_pack_hash5 c bs).trans heq
      exact set_ne_self (by omega) hne
        (unpackRaw_injOn_aligned (by rw [h4]) (by rw [List.length_set, h4]) hraw).symm
    rw [encodeStream_set_digest c bs hp, decodeStream_symbols (by rw [List.length_set, h4]), unpack_pack,
      if_neg hdigest]
  · rw [encodeStream_set_flag, decodeStream_malformed h4 _ hg]
  · have hbytes : unpack c.flagPolicy (pack bs) false = bs ++ [0x00#8] := by
      rw [unpack_false, unpackRaw_pack, if_pos hn]
    exact (decodeStream_set_flag c rom bs false).trans (by rw [hbytes, if_neg hcoll])
  · have hbytes : unpack c.flagPolicy (pack bs) true = bs.dropLast := by
      rw [unpack_true_drops _ _ (.inr hpol), ← dropLast_unpackRaw, unpackRaw_pack, if_neg hn]
    exact (decodeStream_set_flag c rom bs true).trans (by rw [hbytes, if_neg hcoll])
  · have hn : bs.length % 5 ≠ 4 := by
      rw [pack_length, groupsFor] at hk
      omega
    have hbytes : unpack c.flagPolicy (pack bs) true = bs := by
      rw [hpol, unpack_true_keeps _ (by omega), unpackRaw_pack, if_neg hn]
    exact (decodeStream_set_flag c rom bs true).trans (by rw [hbytes, if_pos rfl])

/-- As many groups as n bytes pack to unpack, with the flag of n, to their first n bytes. -/
theorem unpack_flagOf {gs : List Group} {n : Nat} (p : FlagPolicy) (hlen : gs.length = groupsFor n) :
    unpack p gs (flagOf n) = (unpackRaw gs).take n := by
  rw [groupsFor] at hlen
  by_cases h4 : n % 5 = 4
  · rw [flagOf_eq, decide_eq_true h4, unpack_true_drops p gs (.inl (by omega))]
    congr 1
    omega
  · have hround : 5 * gs.length ≤ 4 * n + 3 := by omega
    have hbytes : (unpackRaw gs).length ≤ n := by
      rw [unpackRaw_length, bytesIn]
      omega
    rw [flagOf_eq, decide_eq_false h4, unpack_false, List.take_of_length_le hbytes]

theorem groupsToBits_take (gs : List Group) (j : Nat) : groupsToBits (gs.take j) = (groupsToBits gs).take (10 * j) := by
  by_cases hj : j ≤ gs.length
  · have hlen : (groupsToBits (gs.take j)).length = 10 * j := by simp [hj]
    conv_rhs => rw [← List.take_append_drop j gs, groupsToBits_append, List.take_left' hlen]
  · rw [List.take_of_length_le (by omega), List.take_of_length_le (by simp; omega)]

/-- The groups whose bits lie within the first m bytes can be read back from those bytes. -/
theorem groupsToBits_take_eq {gs : List Group} {j m : Nat} (hj : 10 * j ≤ 8 * m) (hm : 8 * m ≤ 10 * gs.length) :
    groupsToBits (gs.take j) = (bytesToBits ((unpackRaw gs).take m)).take (10 * j) := by
  have hwhole : m ≤ 10 * gs.length / 8 := by omega
  rw [groupsToBits_take, bytesToBits_take, bytesToBits_unpackRaw, List.take_take, List.take_take]
  congr 1
  omega

/-- Settles O60: the bytes recovered are as many as before (`unpack_flagOf`), and the changed group can be read back from
them, since its bits end within them. -/
theorem tamperedPayloadIsDetected : Obligations.TamperedPayloadIsDetected := by
  intro c rom bs p g hp hlast hne
  obtain ⟨q, rfl⟩ := Nat.exists_eq_add_of_le hp
  rw [encodeStream_length, hdrLen] at hlast
  rw [getElem?_encodeStream_payload] at hne
  have hk : (pack bs).length = groupsFor bs.length := pack_length bs
  have hk' : ((pack bs).set q g).length = groupsFor bs.length := by rw [List.length_set, hk]
  have hn : groupsFor bs.length = (4 * bs.length + 4) / 5 := rfl
  refine ⟨unpack c.flagPolicy ((pack bs).set q g) (flagOf bs.length), fun heq => ?_, ?_, ?_⟩
  · have hbytes : (unpackRaw ((pack bs).set q g)).take bs.length = (unpackRaw (pack bs)).take bs.length := by
      rw [← unpack_flagOf c.flagPolicy hk', heq, ← unpack_flagOf c.flagPolicy hk, unpack_pack]
    have hgroups : ((pack bs).set q g).take (q + 1) = (pack bs).take (q + 1) :=
      groupsToBits_injective <| by
        rw [groupsToBits_take_eq (m := bs.length) (by omega) (by omega), hbytes,
          ← groupsToBits_take_eq (by omega) (by omega)]
    rw [List.take_set] at hgroups
    exact set_ne_self (by simp; omega) (by simpa using hne) hgroups
  · rw [unpack_flagOf _ hk', List.length_take, unpackRaw_length, hk', bytesIn]
    omega
  · rw [encodeStream_set_payload, decodeStream_digestOf]

/-! ## The command ENCODE (R173) -/

/-- Settles O22: the output is the encoding of the input bytes, rendered through the alphabet. -/
theorem encodeResult : Obligations.EncodeResult := by
  intro s hn hw
  have hrun : exec .encode s = _ := encodeCmd_run hn
  have hlen : ((encodeStream Config.block ((s.inputs s.ilen.toNat).map byteItem)).map (symbol s.rom)).length =
      5 + groupsFor s.ilen.toNat := by simp [encodeStream_length]
  rw [Config.block_ibufDepth] at hn
  obtain ⟨t, ht, hcode, hpend, holen, hout⟩ :=
    State.withInput_finishes (fun ws => (encodeStream Config.block (ws.map byteItem)).map (symbol s.rom)) hw
      (by rw [hlen, groupsFor]; omega)
  rw [encodeStream_eq, flagGroup_flagOf, List.length_map, State.inputs_length] at hout
  refine ⟨t, hrun.trans ht, hcode, hpend, holen.trans hlen, ?_⟩
  rintro _ rfl
  exact hout

/-! ## The command DECODE (R182) -/

/-- Settles O25: the length is checked before anything is read (R190). -/
theorem decodeLengthFloor : Obligations.DecodeLengthFloor := by
  intro s hs
  exact decodeCmd_short (c := Config.block) (by rw [Config.block_ibufDepth]; omega) (by omega)

section DecodeCmd

variable {c : Config} {s : State} {ss : List Word} (hn : s.ilen.toNat ≤ c.ibufDepth) (h5 : 5 ≤ s.ilen.toNat)
  (hlen : s.ilen.toNat = ss.length) (hss : s.ibuf.holds ss)
include hn h5 hlen hss

theorem decodeCmd_ok {bs : List Byte} (hd : decodeStream c s.rom ss = .ok bs) :
    decodeCmd c s = .next (s.finishOk (bs.map byteWord)) := by
  rw [decodeCmd_run hn h5, hlen, State.withInput_written _ (written_of_holds hss), State.inputs_of_holds hss, hd]

theorem decodeCmd_error {e : CodecError} (he : decodeStream c s.rom ss = .error e) :
    decodeCmd c s = .next (s.fail e.code) := by
  rw [decodeCmd_run hn h5, hlen, State.withInput_written _ (written_of_holds hss), State.inputs_of_holds hss, he]

end DecodeCmd

/-- Settles O23: the header's digest is that of the bytes that the payload unpacks to (`decodeStream_digestOf`). -/
theorem decodeResult : Obligations.DecodeResult := by
  rintro s gs f bs rfl hlen hn hss
  have h4 := pack_hash5_length Config.block (unpack .dropLast gs f)
  have hss' : s.ibuf.holds
      ((pack (hash5 Config.block (unpack .dropLast gs f)) ++ [flagGroup f] ++ gs).map (symbol s.rom)) := hss
  have hdec := (decodeStream_digestOf Config.block s.rom (unpack .dropLast gs f) f gs).trans (if_pos rfl)
  have hrun := decodeCmd_ok hn (by omega) (by rw [hlen, symbols_length h4]) hss' hdec
  have hfit := unpack_length_le .dropLast gs f
  rw [Config.block_ibufDepth] at hn
  rw [bytesIn] at hfit
  simp only [← byteWord_eq]
  refine ⟨_, hrun, rfl, rfl, ?_, State.finishOk_holds s _⟩
  rw [State.finishOk_olen, List.length_map, Config.block_flagPolicy, olen_toNat (by omega)]

/-- Settles O28: the header's digest is not that of the bytes that the payload unpacks to (`decodeStream_symbols`). -/
theorem decodeChecksumMismatch : Obligations.DecodeChecksumMismatch := by
  intro s hs gs f h4 hlen hn hss hne
  have hss' : s.ibuf.holds ((hs ++ [flagGroup f] ++ gs).map (symbol s.rom)) := hss
  have hdec := (decodeStream_symbols (c := Config.block) (rom := s.rom) h4 f gs).trans (if_neg (Ne.symm hne))
  exact decodeCmd_error hn (by omega) (by rw [hlen, symbols_length h4]) hss' hdec

/-! ## ENCODE, then DECODE (R186) -/

/-- What ENCODE leaves when it goes on and its length is in range. -/
theorem encodeCmd_next {c : Config} {s t : State} (hn : s.ilen.toNat ≤ c.ibufDepth)
    (h : encodeCmd c s = .next t) :
    t = s.finishOk ((encodeStream c ((s.inputs s.ilen.toNat).map byteItem)).map (symbol s.rom)) := by
  rw [encodeCmd_run hn] at h
  exact (State.withInput_next h).2

/-- Settles O57: the input of DECODE is the encoding that ENCODE put out, and its length fits in IBUF. -/
theorem commandRoundTrip : Obligations.CommandRoundTrip := by
  intro s t u hn henc hrom hilen hmoved
  obtain ⟨bs, hbs⟩ : ∃ bs, bs = (s.inputs s.ilen.toNat).map byteItem := ⟨_, rfl⟩
  have hbslen : bs.length = s.ilen.toNat := by simp [hbs]
  have ht := encodeCmd_next hn henc
  rw [← hbs, ← hrom] at ht
  have hlen : ((encodeStream Config.block bs).map (symbol u.rom)).length = 5 + groupsFor s.ilen.toNat := by
    rw [List.length_map, encodeStream_length, hbslen]
  rw [Config.block_ibufDepth] at hn
  have hfit : 5 + groupsFor s.ilen.toNat ≤ 4096 := by
    rw [groupsFor]
    omega
  have hulen : u.ilen.toNat = ((encodeStream Config.block bs).map (symbol u.rom)).length := by
    rw [hilen, ht, State.finishOk_olen, olen_toNat (by omega)]
  have hholds : u.ibuf.holds ((encodeStream Config.block bs).map (symbol u.rom)) := by
    intro j hj
    rw [hmoved j (by rw [← hilen]; omega), ht]
    exact State.finishOk_holds s _ j hj
  have hrun := decodeCmd_ok (by rw [Config.block_ibufDepth]; omega) (by omega) hulen hholds
    (streamRoundTrip Config.block u.rom bs)
  refine ⟨_, hrun, rfl, by simp [hbslen], fun i hi => ?_⟩
  rw [State.finishOk_read, if_pos (by rw [List.length_map]; omega), ← byteItem_toNat, ← byteWord_eq]
  simp [hbs, State.inputs, hi]

/-! ## What a failed command leaves (R183) -/

/-- Settles O34: of the ends of a command (`CommandEnd`), only `fail` leaves a code other than OK. -/
theorem failureIsAllOrNothing : Obligations.FailureIsAllOrNothing := by
  intro i s t h hcode
  rw [exec_eq_runCommand] at h
  cases runCommand_end h with
  | failed e ht he => subst ht; rfl
  | finished out ht hlen => subst ht; exact absurd rfl hcode
  | header out f hi ht hlen => subst ht; exact absurd rfl hcode

/-! ## What a result depends on (R187) -/

/-- Two commands end alike: both fail with one code, or both put out one output (and one flag). -/
inductive EndAlike (s s' : State) : State → State → Prop
  | failed (e : StatusCode) : EndAlike s s' (s.fail e) (s'.fail e)
  | finished (out : List Word) : EndAlike s s' (s.finishOk out) (s'.finishOk out)
  | header (out : List Word) (f : Bool) : EndAlike s s' (s.finishOkFlag out f) (s'.finishOkFlag out f)

/-- A command goes on at `s'` as it does at `s`. -/
def ResultAlike (s s' : State) (r r' : Result) : Prop :=
  ∀ t, r = .next t → ∃ t', r' = .next t' ∧ EndAlike s s' t t'

section Alike

variable {s s' : State}

/-- What the host can observe is the code, OLEN.N, the entries below it, and FLAG. -/
theorem State.observe_congr {t t' : State} (op : Op) (hcode : t'.code = t.code) (holen : t'.olen = t.olen)
    (hout : ∀ j, j < t.olen.toNat → t'.obuf.read j = t.obuf.read j) (hflag : t'.flag = t.flag) :
    t'.observe op = t.observe op := by
  have hmap : (List.range t.olen.toNat).map t'.obuf.read = (List.range t.olen.toNat).map t.obuf.read :=
    List.map_congr_left fun j hj => hout j (List.mem_range.mp hj)
  simp only [State.observe, hcode, holen, hflag, hmap]

/-- One output stored over two buffers reads the same below OLEN.N. -/
theorem State.finishOk_read_congr (out : List Word) {j : Nat} (hj : j < (s.finishOk out).olen.toNat) :
    (s'.finishOk out).obuf.read j = (s.finishOk out).obuf.read j := by
  have hlt : j < out.length := hj.trans_le (by simpa using Nat.mod_le _ _)
  rw [State.finishOk_read, State.finishOk_read, if_pos hlt, if_pos hlt]

theorem EndAlike.observe_eq {t t' : State} (h : EndAlike s s' t t') (hflag : s.flag = s'.flag) (op : Op) :
    t'.observe op = t.observe op ∧ t'.flag = t.flag := by
  cases h with
  | failed e => exact ⟨State.observe_congr op rfl rfl nofun hflag.symm, hflag.symm⟩
  | finished out =>
    exact ⟨State.observe_congr op rfl rfl (fun _ => State.finishOk_read_congr out) hflag.symm, hflag.symm⟩
  | header out f => exact ⟨State.observe_congr op rfl rfl (fun _ => State.finishOk_read_congr out) rfl, rfl⟩

theorem ResultAlike.failed (e : StatusCode) : ResultAlike s s' (.next (s.fail e)) (.next (s'.fail e)) := by
  rintro _ ⟨⟩
  exact ⟨_, rfl, .failed e⟩

/-- A command's check of ILEN, which fails at both states or at neither. -/
theorem ResultAlike.guarded {p : Prop} [Decidable p] {e : StatusCode} {r r' : Result}
    (h : ¬ p → ResultAlike s s' r r') :
    ResultAlike s s' (if p then .next (s.fail e) else r) (if p then .next (s'.fail e) else r') := by
  split
  · exact .failed e
  · exact h ‹_›

/-- A command reads the same words where the entries of its read set are the same. -/
theorem ResultAlike.withInput {n : Nat} {k k' : List Word → State}
    (hread : ∀ j, j < n → s.ibuf.read j = s'.ibuf.read j) (hk : ∀ ws, EndAlike s s' (k ws) (k' ws)) :
    ResultAlike s s' (s.withInput n k) (s'.withInput n k') := by
  intro t ht
  obtain ⟨hw, rfl⟩ := State.withInput_next ht
  have hw' : Written s'.ibuf n := fun j hj => hread j hj ▸ hw j hj
  have hin : s'.inputs n = s.inputs n :=
    List.map_congr_left fun j hj => by rw [Memory.word, Memory.word, hread j (List.mem_range.mp hj)]
  exact ⟨_, State.withInput_written k' hw', hin ▸ hk _⟩

/-- A command that checks N against IBUF_DEPTH only and then reads all of IBUF[0..N-1]. -/
theorem ResultAlike.bounded {d n : Nat} {k k' : List Word → State}
    (hread : ∀ j, j < (if n ≤ d then n else 0) → s.ibuf.read j = s'.ibuf.read j)
    (hk : ∀ ws, EndAlike s s' (k ws) (k' ws)) :
    ResultAlike s s' (if d < n then .next (s.fail .badLength) else s.withInput n k)
      (if d < n then .next (s'.fail .badLength) else s'.withInput n k') := by
  refine .guarded fun hn => .withInput ?_ hk
  rwa [if_pos (Nat.not_lt.mp hn)] at hread

/-- A command reads nothing but its operands and its read set. -/
theorem runCommand_alike (c : Config) (i : Instr) (hilen : s.ilen = s'.ilen) (hflag : s.flag = s'.flag)
    (hrom : s.rom = s'.rom)
    (hread : ∀ j, j < readCount c.ibufDepth i s.ilen.toNat → s.ibuf.read j = s'.ibuf.read j) :
    ResultAlike s s' (runCommand c i s) (runCommand c i s') := by
  cases i with
  | symAt | indexOf | pack | unpack | encode =>
    simp only [runCommand, symAt, indexOf, packCmd, unpackCmd, encodeCmd, ← hilen, ← hflag, ← hrom]
    exact .bounded hread fun _ => .finished _
  | hdrEnc =>
    simp only [runCommand, hdrEncCmd, ← hilen, ← hflag, ← hrom]
    refine .guarded fun hn => .withInput ?_ fun ws => .finished _
    rwa [readCount, if_pos (not_not.mp hn)] at hread
  | hdrDec =>
    simp only [runCommand, hdrDecCmd, ← hilen, ← hrom]
    refine .guarded fun hn => .guarded fun h5 => .withInput ?_ fun ws => ?_
    · rwa [readCount, if_pos ⟨Nat.not_lt.mp h5, Nat.not_lt.mp hn⟩] at hread
    · cases hdrDecode s.rom ws with
      | error e => exact .failed _
      | ok p => exact .header _ _
  | decode =>
    simp only [runCommand, decodeCmd, ← hilen, ← hrom]
    refine .guarded fun hn => .guarded fun h5 => .withInput ?_ fun ws => ?_
    · rwa [readCount, if_pos ⟨Nat.not_lt.mp h5, Nat.not_lt.mp hn⟩] at hread
    · cases decodeStream c s.rom ws with
      | error e => exact .failed _
      | ok bs => exact .finished _

end Alike

/-- Settles O35: the two runs end alike (`runCommand_alike`), and OBUF is observed only below OLEN.N, where the output
stands. -/
theorem resultDependsOnTheReadSetOnly : Obligations.ResultDependsOnTheReadSetOnly := by
  intro i s s' t hilen hflag hrom hread h
  rw [exec_eq_runCommand] at h
  obtain ⟨t', ht', halike⟩ := runCommand_alike Config.block i hilen hflag hrom hread t h
  exact ⟨t', by rw [exec_eq_runCommand, ht'], halike.observe_eq hflag _⟩

end Sys2Proof.Machine

/-! # Proofs for 60_exceptions.md: the block step, the codes that end a command and their order, and the model fault of an
unwritten input -/

namespace Sys2Proof.Machine

/-! ## The block step (R201) -/

theorem blockStep_command {run : Instr → State → Result} {s : State} {op : Op} {i : Instr} (hp : s.pend = some op)
    (hop : decodeOp op = .ok i) : blockStep run s = run i s := by
  simp only [blockStep, hp, hop]

/-- Settles O6: with no event to come, or with the block's turn first, the step is the block step. -/
theorem stepRunsTheDecodedCommand : Obligations.StepRunsTheDecodedCommand := by
  intro s op i hp hop
  constructor
  · intro he
    exact (turn_idle he).trans (blockStep_command hp hop)
  · intro rest he
    exact step_block_command he hp hop

/-! ## The paths of a command in the order of their checks (R203, R206, R211) -/

/-- The lengths N that command `i` answers with BAD_LENGTH (R203). -/
def BadLength (c : Config) (i : Instr) (n : Nat) : Prop := c.ibufDepth < n ∨ (i = .hdrEnc ∧ n ≠ 5)

/-- The lengths N that command `i` answers with TOO_SHORT, where BAD_LENGTH does not come first (R203, R206). -/
def TooShort (i : Instr) (n : Nat) : Prop := (i = .hdrDec ∨ i = .decode) ∧ n < 5

/-- The codes that a command may leave once it has read its input (R203's table of causes). -/
def codesAfterRead : Instr → List StatusCode
  | .hdrDec => [.ok, .invalidSymbol, .malformedHeader]
  | .decode => [.ok, .invalidSymbol, .malformedHeader, .checksumMismatch]
  | _ => [.ok]

/-- The paths of a command: N is refused, or the input is too short for a header, and nothing is read; or the read set is
needed, and one of the command's own codes is left. -/
inductive CommandPath (c : Config) (i : Instr) (s : State) : Result → Prop where
  | badLength (hbad : BadLength c i s.ilen.toNat) : CommandPath c i s (.next (s.fail .badLength))
  | tooShort (hlen : ¬ BadLength c i s.ilen.toNat) (hshort : TooShort i s.ilen.toNat) :
      CommandPath c i s (.next (s.fail .tooShort))
  | reads (hlen : ¬ BadLength c i s.ilen.toNat) (n : Nat) (hn : readCount c.ibufDepth i s.ilen.toNat = n)
      (k : List Word → State) (hk : (k (s.inputs n)).code ∈ codesAfterRead i) :
      CommandPath c i s (s.withInput n k)

theorem hdrDecode_error_cases {rom : Alphabet} {ss : List Word} {e : CodecError} (h : hdrDecode rom ss = .error e) :
    e = .invalidSymbol ∨ e = .malformedHeader := by
  unfold hdrDecode at h
  split at h
  · cases h; exact .inl rfl
  · split at h
    · cases h; exact .inr rfl
    · cases h

theorem decodeStream_error_cases {c : Config} {rom : Alphabet} {ss : List Word} {e : CodecError} (h5 : 5 ≤ ss.length)
    (h : decodeStream c rom ss = .error e) : e = .invalidSymbol ∨ e = .malformedHeader ∨ e = .checksumMismatch := by
  rw [decodeStream, hdrLen, if_neg (Nat.not_lt.mpr h5)] at h
  split at h
  · cases h
    exact (hdrDecode_error_cases ‹_›).imp_right .inl
  · split at h
    · cases h; exact .inl rfl
    · dsimp only at h
      split at h <;> cases h
      exact .inr (.inr rfl)

section Paths

variable {c : Config} {i : Instr} {s : State}

/-- A command that checks N against IBUF_DEPTH only, and cannot fail once it has read IBUF[0..N-1]. -/
theorem CommandPath.bounded {k : List Word → State} (hi : i ≠ .hdrEnc)
    (hread : readCount c.ibufDepth i s.ilen.toNat = if s.ilen.toNat ≤ c.ibufDepth then s.ilen.toNat else 0)
    (hk : (k (s.inputs s.ilen.toNat)).code ∈ codesAfterRead i) :
    CommandPath c i s
      (if c.ibufDepth < s.ilen.toNat then .next (s.fail .badLength) else s.withInput s.ilen.toNat k) := by
  split
  case isTrue hlong => exact .badLength (.inl hlong)
  case isFalse hlong =>
    rw [if_pos (Nat.not_lt.mp hlong)] at hread
    exact .reads (by simp [BadLength, hlong, hi]) _ hread _ hk

/-- A command that wants a header: N is checked against IBUF_DEPTH, then against the header's length. -/
theorem CommandPath.headed {n : Nat} {k : List Word → State} (hi : i = .hdrDec ∨ i = .decode)
    (hread : readCount c.ibufDepth i s.ilen.toNat = if 5 ≤ s.ilen.toNat ∧ s.ilen.toNat ≤ c.ibufDepth then n else 0)
    (hk : 5 ≤ s.ilen.toNat → (k (s.inputs n)).code ∈ codesAfterRead i) :
    CommandPath c i s
      (if c.ibufDepth < s.ilen.toNat then .next (s.fail .badLength)
      else if s.ilen.toNat < 5 then .next (s.fail .tooShort) else s.withInput n k) := by
  have hne : i ≠ .hdrEnc := by rintro rfl; simp at hi
  split
  case isTrue hlong => exact .badLength (.inl hlong)
  case isFalse hlong =>
    have hlen : ¬ BadLength c i s.ilen.toNat := by simp [BadLength, hlong, hne]
    split
    case isTrue hshort => exact .tooShort hlen ⟨hi, hshort⟩
    case isFalse hshort =>
      have h5 := Nat.not_lt.mp hshort
      rw [if_pos ⟨h5, Nat.not_lt.mp hlong⟩] at hread
      exact .reads hlen _ hread _ (hk h5)

/-- The inversion of the commands by their checks. HDR_ENC does not compare N with IBUF_DEPTH, which is at least 5 by
00_scope.md R7 item 4. -/
theorem runCommand_path (hdepth : 5 ≤ c.ibufDepth) (i : Instr) (s : State) :
    CommandPath c i s (runCommand c i s) := by
  cases i with
  | symAt | indexOf | pack | unpack | encode => exact .bounded (by decide) rfl (List.mem_singleton.mpr rfl)
  | hdrEnc =>
    by_cases h5 : s.ilen.toNat = 5
    · have hrun : runCommand c .hdrEnc s = _ := hdrEncCmd_run (c := c) h5
      rw [hrun]
      exact .reads (by simp [BadLength, h5, hdepth]) 5 (by simp [readCount, h5]) _ (List.mem_singleton.mpr rfl)
    · have hrun : runCommand c .hdrEnc s = _ := hdrEncCmd_wrong (c := c) h5
      rw [hrun]
      exact .badLength (.inr ⟨rfl, h5⟩)
  | hdrDec =>
    refine .headed (.inl rfl) rfl fun _ => ?_
    split
    · rw [State.fail_code]
      obtain rfl | rfl := hdrDecode_error_cases ‹_› <;> decide
    · exact List.mem_cons_self
  | decode =>
    refine .headed (.inr rfl) rfl fun h5 => ?_
    have h5' : 5 ≤ (s.inputs s.ilen.toNat).length := by simpa using h5
    split
    · rw [State.fail_code]
      obtain rfl | rfl | rfl := decodeStream_error_cases h5' ‹_› <;> decide
    · exact List.mem_cons_self

theorem exec_path (i : Instr) (s : State) : CommandPath Config.block i s (exec i s) := by
  rw [exec_eq_runCommand]
  exact runCommand_path (by decide) i s

/-! ## What each path says -/

/-- A refused length, or one too short for a header, has an empty read set (R211). -/
theorem written_readCount_of_stopped {m : Memory} {n : Nat} (hdepth : 5 ≤ c.ibufDepth)
    (h : BadLength c i n ∨ TooShort i n) : Written m (readCount c.ibufDepth i n) := by
  have hzero : readCount c.ibufDepth i n = 0 := by
    obtain (hlong | ⟨rfl, h5⟩) | ⟨rfl | rfl, h5⟩ := h
    · have hne : n ≠ 5 := by omega
      cases i <;> simp [readCount, Nat.not_le.mpr hlong, hne]
    · exact if_neg h5
    · exact if_neg fun h => absurd h.1 (Nat.not_le.mpr h5)
    · exact if_neg fun h => absurd h.1 (Nat.not_le.mpr h5)
  rw [hzero]
  exact fun _ hj => absurd hj (Nat.not_lt_zero _)

variable {r : Result}

theorem CommandPath.of_badLength (h : CommandPath c i s r) (hbad : BadLength c i s.ilen.toNat) :
    r = .next (s.fail .badLength) := by
  cases h with
  | badLength _ => rfl
  | tooShort hlen _ | reads hlen _ _ _ _ => exact absurd hbad hlen

/-- The code that a command leaves tells its path. -/
theorem CommandPath.code {t : State} (h : CommandPath c i s r) (ht : r = .next t) :
    (t.code = .badLength ∧ BadLength c i s.ilen.toNat) ∨ (t.code = .tooShort ∧ TooShort i s.ilen.toNat) ∨
      t.code ∈ codesAfterRead i := by
  cases h with
  | badLength hbad => cases ht; exact .inl ⟨rfl, hbad⟩
  | tooShort _ hshort => cases ht; exact .inr (.inl ⟨rfl, hshort⟩)
  | reads _ n _ k hk =>
    obtain ⟨-, rfl⟩ := State.withInput_next ht
    exact .inr (.inr hk)

theorem CommandPath.goes_on (h : CommandPath c i s r) (hw : Written s.ibuf (readCount c.ibufDepth i s.ilen.toNat)) :
    ∃ t, r = .next t := by
  cases h with
  | badLength _ | tooShort _ _ => exact ⟨_, rfl⟩
  | reads _ n hn k _ => exact ⟨_, State.withInput_written k (hn ▸ hw)⟩

theorem CommandPath.faults (h : CommandPath c i s r) (hdepth : 5 ≤ c.ibufDepth)
    (hw : ¬ Written s.ibuf (readCount c.ibufDepth i s.ilen.toNat)) : r = .fault .unwrittenInput := by
  cases h with
  | badLength hbad => exact absurd (written_readCount_of_stopped hdepth (.inl hbad)) hw
  | tooShort _ hshort => exact absurd (written_readCount_of_stopped hdepth (.inr hshort)) hw
  | reads _ n hn k _ => exact State.withInput_unwritten k (hn ▸ hw)

end Paths

theorem badLength_notMem_codesAfterRead (i : Instr) : .badLength ∉ codesAfterRead i := by cases i <;> decide

/-- Settles O24: a refused length takes the first path, and no other path leaves that code. -/
theorem badLengthExactly : Obligations.BadLengthExactly := by
  intro i s
  refine ⟨(exec_path i s).of_badLength, fun t ht hcode => ?_⟩
  obtain ⟨-, hbad⟩ | ⟨hshort, -⟩ | hread := (exec_path i s).code ht
  · exact hbad
  · rw [hcode] at hshort
    cases hshort
  · rw [hcode] at hread
    exact absurd hread (badLength_notMem_codesAfterRead i)

/-- Settles O29: only the last path of a command reads, and its read set is R211's. -/
theorem commandsFaultExactlyOnUnwrittenInput : Obligations.CommandsFaultExactlyOnUnwrittenInput := fun i s =>
  ⟨(exec_path i s).goes_on, (exec_path i s).faults (by decide)⟩

/-! ## The code that a command leaves (R201, R203) -/

theorem of_mem_codesAfterRead (i : Instr) : ∀ e ∈ codesAfterRead i,
    e ≠ .badCommand ∧ (e = .checksumMismatch → i = .decode) ∧ (i ≠ .hdrDec → i ≠ .decode → e = .ok) := by
  cases i <;> decide

theorem CommandEnd.pend {c : Config} {i : Instr} {s t : State} (h : CommandEnd c i s t) : t.pend = none :=
  t.not_busy_iff.mp h.not_busy

/-- Settles O30: STATUS of an idle block is its code, and each path of the command names the codes it leaves. -/
theorem commandsEndWithACode : Obligations.CommandsEndWithACode := by
  intro i s t h
  have hend : CommandEnd Config.block i s t := runCommand_end ((exec_eq_runCommand i s).symm.trans h)
  refine ⟨hend.pend, State.statusWord_idle hend.not_busy, ?_⟩
  obtain ⟨hcode, -⟩ | ⟨hcode, hi, -⟩ | hcode := (exec_path i s).code h
  · simp [hcode]
  · obtain rfl | rfl := hi <;> simp [hcode]
  · obtain ⟨hbadCommand, hmismatch, hok⟩ := of_mem_codesAfterRead i t.code hcode
    exact ⟨hbadCommand, hmismatch, fun hdec hdecode => .inl (hok hdec hdecode)⟩

/-! ## A pending command finishes (R213) -/

theorem blockStep_finishes {s : State} {op : Op} (hp : s.pend = some op) :
    (∃ t, blockStep exec s = .next t ∧ t.pend = none ∧ t.events = s.events) ∨
      blockStep exec s = .fault .unwrittenInput := by
  cases hop : decodeOp op with
  | error e => exact .inl ⟨s.fail .badCommand, by simp only [blockStep, hp, hop], rfl, rfl⟩
  | ok i =>
    obtain ⟨hgoes, hfaults⟩ := commandsFaultExactlyOnUnwrittenInput i s
    rw [blockStep_command hp hop]
    by_cases hw : Written s.ibuf (readCount Config.block.ibufDepth i s.ilen.toNat)
    · obtain ⟨t, ht⟩ := hgoes hw
      obtain ⟨-, -, -, -, hevents, -⟩ := commandsKeepTheirInputs i s t ht
      exact .inl ⟨t, ht, (commandsEndWithACode i s t ht).1, hevents⟩
    · exact .inr (hfaults hw)

/-- Settles O39: the accesses leave the pending command as it was (`runSteps_accesses_busy`), and the block then moves. -/
theorem pendingCommandFinishes : Obligations.PendingCommandFinishes := by
  intro s hbusy hacc
  obtain ⟨op, hp⟩ := Option.isSome_iff_exists.mp hbusy
  obtain ⟨r, n, hrun⟩ := runSteps_accesses_busy hbusy hacc s.events.append_nil.symm
  rw [hrun, runSteps_one, step, turn_idle rfl]
  exact blockStep_finishes hp

/-! ## The symbol and header failures of DECODE (R206 orders 4 to 6) -/

theorem exists_flagGroup_eq {g : Group} (hg : g.toNat < 2) : ∃ f, g = flagGroup f := by
  obtain h0 | h1 : g.toNat = 0 ∨ g.toNat = 1 := by omega
  · exact ⟨false, BitVec.eq_of_toNat_eq h0⟩
  · exact ⟨true, BitVec.eq_of_toNat_eq h1⟩

section Inputs

variable {s : State}

theorem State.inputs_holds {n : Nat} (hw : Written s.ibuf n) : s.ibuf.holds (s.inputs n) := by
  intro j hj
  obtain ⟨w, hread⟩ := Option.isSome_iff_exists.mp (hw j (by simpa using hj))
  simp [State.inputs, Memory.word, hread]

theorem State.inputs_take {m n : Nat} (h : m ≤ n) : (s.inputs n).take m = s.inputs m := by
  rw [State.inputs, ← List.map_take, List.take_range, min_eq_left h, State.inputs]

theorem State.word_mem_inputs {p n : Nat} (h : p < n) : s.ibuf.word p ∈ s.inputs n :=
  List.mem_map_of_mem (List.mem_range.mpr h)

theorem State.word_mem_inputs_drop {m p n : Nat} (hm : m ≤ p) (h : p < n) : s.ibuf.word p ∈ (s.inputs n).drop m :=
  List.mem_drop_iff_getElem.mpr ⟨p - m, by simp; omega, by simp [State.inputs, hm]⟩

/-- Header words that are all in the alphabet are the symbols of four digest groups and the flag group. -/
theorem State.inputs_header (hdigest : ∀ p, p < 4 → ∃ g : Group, symbol s.rom g = s.ibuf.word p) {g : Group}
    (hflag : symbol s.rom g = s.ibuf.word 4) :
    ∃ hs : List Group, hs.length = 4 ∧ s.inputs 5 = (hs ++ [g]).map (symbol s.rom) := by
  obtain ⟨g0, h0⟩ := hdigest 0 (by decide)
  obtain ⟨g1, h1⟩ := hdigest 1 (by decide)
  obtain ⟨g2, h2⟩ := hdigest 2 (by decide)
  obtain ⟨g3, h3⟩ := hdigest 3 (by decide)
  exact ⟨[g0, g1, g2, g3], rfl, by simp [State.inputs_five, h0, h1, h2, h3, hflag]⟩

end Inputs

/-- Settles O27: the header is decoded first, its symbols before its flag, and the payload after it. -/
theorem decodeSymbolFailuresInOrder : Obligations.DecodeSymbolFailuresInOrder := by
  intro s h5 hn hw
  have h5' : 5 ≤ (s.inputs s.ilen.toNat).length := by simpa using h5
  have herror {e : CodecError} (he : decodeStream Config.block s.rom (s.inputs s.ilen.toNat) = .error e) :
      exec .decode s = .next (s.fail e.code) :=
    decodeCmd_error hn h5 (s.inputs_length _).symm (State.inputs_holds hw) he
  refine ⟨?foreignHeader, ?flagIndex, ?foreignPayload⟩
  case foreignHeader =>
    rintro ⟨p, hp, hforeign⟩
    refine herror (e := .invalidSymbol) (decodeStream_headerError h5' ?_)
    rw [State.inputs_take h5]
    exact hdrDecode_foreign (State.word_mem_inputs hp) hforeign
  case flagIndex =>
    rintro hdigest ⟨g, hg, hflag⟩
    obtain ⟨hs, hlen, hheader⟩ := State.inputs_header hdigest hflag
    refine herror (e := .malformedHeader) (decodeStream_headerError h5' ?_)
    rw [State.inputs_take h5, hheader]
    exact hdrDecode_malformed hlen hg
  case foreignPayload =>
    rintro hdigest ⟨g, hg, hflag⟩ ⟨p, h5p, hp, hforeign⟩
    obtain ⟨f, rfl⟩ := exists_flagGroup_eq hg
    obtain ⟨hs, hlen, hheader⟩ := State.inputs_header hdigest hflag
    have hd : hdrDecode s.rom ((s.inputs s.ilen.toNat).take 5) = .ok (unpackRaw hs, f) := by
      rw [State.inputs_take h5, hheader]
      exact hdrDecode_flag hlen f
    exact herror (decodeStream_foreignPayload h5' hd (State.word_mem_inputs_drop h5p hp) hforeign)

end Sys2Proof.Machine

/-! # Proofs for 70_reset_and_hazards.md: the reset event, and host accesses during and after a command -/

namespace Sys2Proof.Machine

/-! ## Results after a command (R237) -/

/-- Settles O38: OBUF[j] is within OBUF_DEPTH and written by the invariant, so its address does not wrap and the read
finds its word. -/
theorem hostCanReadEveryResult : Obligations.HostCanReadEveryResult := by
  intro s j rest hinv hidle hj he
  have hdepth : j < Config.block.obufDepth := hj.trans_le hinv.olen_le
  obtain ⟨w, hw⟩ := Option.isSome_iff_exists.mp (hinv.out_written j hj)
  have hresult := hostReadResult_obuf hidle hdepth hw
  exact ⟨w, hw, step_read_word he hresult⟩

/-! ## Reset (R230 to R232) -/

theorem step_reset {s : State} {rest : List Event} (he : s.events = .reset :: rest) :
    step s = .next (State.blockReset { s with events := rest }) := turn_reset he

/-- Settles O2: the step is `State.blockReset`, whose fields have the values of 10_state.md R35, whatever is pending. -/
theorem resetEventFromAnyState : Obligations.ResetEventFromAnyState := by
  intro s rest he
  have hstatus : (State.blockReset { s with events := rest }).statusWord = 0x00000000#32 :=
    State.statusWord_idle_ok (State.blockReset_busy _) (State.blockReset_code _)
  exact ⟨_, step_reset he, by simp [hstatus]⟩

/-! ## Host accesses while a command is pending (R235, R236) -/

/-- Settles O9. -/
theorem hostWriteIgnoredWhileBusy : Obligations.HostWriteIgnoredWhileBusy := by
  intro s a v rest hbusy he
  rw [step_write he, hostWrite_busy (s := { s with events := rest }) hbusy]

section BusyReads

variable {c : Config} {s : State} {a : HostAddr}

/-- STATUS of a busy block is bit 31 over CODE (10_state.md R22). -/
theorem State.statusWord_busy (hbusy : s.busy = true) : s.statusWord = 0x80000000#32 ||| s.code.bits.setWidth 32 := by
  rw [State.statusWord, hbusy]
  cases s.code <;> decide

/-- The results of a command are not to be seen while it runs (R236). -/
theorem hostReadResult_busy_draw (hbusy : s.busy = true) (ha : a = 0x0003#16 ∨ a = 0x0004#16 ∨ inObuf c a = true) :
    hostReadResult c a s = .anyWord := by
  have hstatus : a ≠ 0x0001#16 := by
    rintro rfl
    simp [inObuf] at ha
  have hdraw : (s.busy && (a == 0x0003#16 || a == 0x0004#16 || inObuf c a)) = true := by
    simpa [hbusy, or_assoc] using ha
  rw [hostReadResult, if_neg hstatus, if_pos hdraw]

end BusyReads

/-- Settles O13: OLEN, FLAG and OBUF are draws (`hostReadResult_busy_draw`), and at the other addresses the rules of the
port hold busy or not. -/
theorem hostReadWhileBusy : Obligations.HostReadWhileBusy := by
  intro s a rest hbusy he
  refine ⟨?status, fun ha => ?draw, ?ilen, fun i w hi ha hw => ?written, fun i hi ha hw => ?unwritten, fun ha => ?zero⟩
  case status =>
    rintro rfl
    exact step_read_word he (by rw [hostReadResult_status, State.statusWord_busy hbusy])
  case draw =>
    have hin : 0x8000 ≤ a.toNat ∧ a.toNat < 0x8000 + Config.block.obufDepth → inObuf Config.block a = true := by
      simp [inObuf]
    exact step_read_anyWord he (hostReadResult_busy_draw hbusy (ha.imp_right (Or.imp_right hin)))
  case ilen =>
    rintro rfl
    exact step_read_word he hostReadResult_ilen
  case written => exact step_read_word he (by rw [hostReadResult_ibuf (by decide) hi ha, hw, Option.elim_some])
  case unwritten => exact step_read_anyWord he (by rw [hostReadResult_ibuf (by decide) hi ha, hw, Option.elim_none])
  case zero =>
    have hib : Config.block.ibufDepth ≤ 0x4000 := by decide
    have hreg : a = 0x0000#16 ∨ 5 ≤ a.toNat := ha.imp_right (by omega)
    have hin : inIbuf Config.block a = false := inIbuf_eq_false_iff.mpr (by bv_omega)
    have hout : inObuf Config.block a = false := inObuf_eq_false_iff.mpr (by bv_omega)
    exact step_read_word he (hostReadResult_zero hreg hin hout)

end Sys2Proof.Machine
